-- ==== Sys2Proof/Word.lean ====
section
/-! DEFINITION. The word types of the block (00_scope R2, R3). -/

namespace Sys2Proof

/-- `u8`: a memory cell, an address, `accA`, `accB`, `addrReg`, `pc` (00_scope R2, R3). -/
abbrev Byte := BitVec 8

/-- The stored value of `microState`: 4 bits (30_encoding R55). -/
abbrev MicroState := BitVec 4

end Sys2Proof
end

