-- ==== Sys2Proof/Config.lean ====
section
/-! DEFINITION. The parameters of the block at the values this hardware takes (00_scope R2).
The spec leaves no value of the machine undefined after reset (93_implementation_defined, part 1), so there is no free
value here. `PC_WIDTH` and `CNT_WIDTH` are the spec's two OPEN parameters: the model takes 8 and unbounded (log entry 6);
the other widths of `pc` are in Machine/WidePc.lean. -/

namespace Sys2Proof.Config

/-- `MEM_DEPTH`: the number of memory cells. -/
def memDepth : Nat := 256

/-- `OUT_ADDR`: the output-mapped address. -/
def outAddr : Byte := 255

/-- `RESET_PC`: the entry point after reset. -/
def resetPc : Byte := 0

/-- `N_PHASES`: the number of legal micro-states. -/
def numPhases : Nat := 12

/-- What a cell holds after `reset()` (10_state R23): what an unlisted address of `mem` reads as. -/
def resetCell : Byte := 0

end Sys2Proof.Config
end

