-- ==== Sys2Proof/Machine/State.lean ====
section
/-! DEFINITION. The state of the block (10_state R10: exactly ten items), the host agent's side of it (00_scope R4,
43_host_interface R100), the reasons a step can stop, and the state after reset (10_state R23). -/

namespace Sys2Proof.Machine

/-- `mem` as address and byte pairs in one canonical form (`Memory.wf`): addresses strictly rising and below 256, no
entry equal to what an unlisted address reads as. -/
abbrev Memory := List Host.Cell

/-- The fault reasons of 60_exceptions R111. -/
inductive Fault where
  /-- The step found `errorFlag = 0` and `microState` in 12 to 15 (R72). Reported to the host that called for the step;
  the step itself is a next state with `errorFlag` set. Safe: it is the spec's own fault. -/
  | illegalMicroState
  /-- The step found `errorFlag = 1` (R73): nothing changes. Every row's meaning raises it. Safe: the source calls the
  behaviour unspecified and the spec gives it this outcome (decision D5, "toward unprovable"). -/
  | steppedWhileFaulted
  deriving DecidableEq, Repr

/-- Reasons to give an instruction no meaning. -/
inductive Refusal where
  /-- An arm of `exec` without a meaning. Safe. No arm raises it: every row of the table has its meaning. -/
  | notModelled (mnemonic : String)
  deriving DecidableEq, Repr

/-- The CPU state fields the host can read (43_host_interface R105). -/
inductive StateField where
  | accA | accB | addrReg | pc | microState | errorFlag | instructionCount | clockCount
  deriving DecidableEq, Repr

/-- The operations the block exposes to its host (43_host_interface R100). Addresses and values are the integers the
host supplies (R106, R107). -/
inductive HostCall where
  | reset
  | loadImage (bytes : List Byte)
  | stepClockCycle
  | stepInstruction
  | readState (field : StateField)
  | readMemory (address : Int)
  | writeMemory (address value : Int)
  deriving DecidableEq, Repr

/-- What a host operation reports (43_host_interface R100, column "can report"). -/
inductive HostReply where
  /-- The operation reports nothing. -/
  | returned
  /-- A step operation with outcome `next`. -/
  | stepped
  /-- A step operation with outcome `fault` (R103, R104). -/
  | fault (reason : Fault)
  /-- `loadImage` loaded the first 256 bytes of a longer image (R102). -/
  | truncated
  /-- A memory operation outside 0 to 255: nothing was done (R108). -/
  | addressOutOfRange
  /-- The value read (R105, R106). -/
  | value (v : Nat)
  deriving DecidableEq, Repr

/-- Which of the two step operations the driver invokes while no call is pending (43_host_interface R103, R104). -/
inductive Stepping where
  | clockCycle
  | instruction
  deriving DecidableEq, Repr

structure State where
  /-- The 256 cells (10_state R20). -/
  mem : Memory
  /-- The subtrahend register (10_state R11). -/
  accA : Byte
  /-- The minuend register (10_state R11). -/
  accB : Byte
  /-- The memory-address register (10_state R12). -/
  addrReg : Byte
  /-- The program counter (10_state R13). -/
  pc : Byte
  /-- The phase the next clock step performs (10_state R16). -/
  microState : MicroState
  /-- The sticky fault indicator (10_state R17). -/
  errorFlag : Bool
  /-- Retired instructions (10_state R18). -/
  instructionCount : Nat
  /-- Legal clock steps (10_state R19). -/
  clockCount : Nat
  /-- The output byte stream, oldest first (10_state R21). -/
  out : List Byte
  /-- The MODEL's field: the host operations still to be performed, next first (00_scope R4; log entry 1). -/
  calls : List HostCall
  /-- The MODEL's field: what the host's operations reported, oldest first (log entry 1). -/
  replies : List HostReply
  /-- The MODEL's field: how the driver steps while no call is pending (log entry 2). -/
  stepping : Stepping
  deriving DecidableEq, Repr

/-- The state after `reset()` (10_state R23, 70_reset_and_hazards R130), with nothing emitted yet and no host call
pending (log entries 1, 2, 3). -/
def State.reset : State where
  mem := []
  accA := 0
  accB := 0
  addrReg := 0
  pc := Config.resetPc
  microState := 0
  errorFlag := false
  instructionCount := 0
  clockCount := 0
  out := []
  calls := []
  replies := []
  stepping := .clockCycle

end Sys2Proof.Machine
end

