-- ==== Sys2Proof/Machine/Ops.lean ====
section
/-! DEFINITION. The named operations over memory and registers: the cells of `mem`, `MemRead`, `MemWrite`, `Emit`
(20_memory R31, R32), the end of a phase (40_clock_cycle_state_machine R59), taking the one exception
(60_exceptions R110) and leaving it (R117, R131). -/

namespace Sys2Proof.Machine

/-- `wrap8(x)`: the byte congruent to `x` modulo 256 (00_scope R3). -/
def wrap8 (x : Int) : Byte := BitVec.ofInt 8 x

/-- What an unlisted address reads as: the reset content of a cell (10_state R23). -/
def Memory.unlisted : Byte := Config.resetCell

/-- The content of the cell at an address. -/
def Memory.read : Memory → Nat → Byte
  | [], _ => Memory.unlisted
  | (k, v) :: m, a => if k = a then v else Memory.read m a

/-- The list without any entry for an address. -/
def Memory.erase : Memory → Nat → Memory
  | [], _ => []
  | (k, v) :: m, a => if k = a then Memory.erase m a else (k, v) :: Memory.erase m a

/-- The list with an entry put in before the first greater address. -/
def Memory.insert : Memory → Nat → Byte → Memory
  | [], a, v => [(a, v)]
  | (k, x) :: m, a, v => if a < k then (a, v) :: (k, x) :: m else (k, x) :: Memory.insert m a v

/-- The memory with one cell set. Setting the value an unlisted address reads as removes the entry. -/
def Memory.write (m : Memory) (a : Nat) (v : Byte) : Memory :=
  if v = Memory.unlisted then m.erase a else (m.erase a).insert a v

/-- The canonical form from an address on. -/
def Memory.wfFrom : Nat → Memory → Bool
  | _, [] => true
  | lo, (k, v) :: m =>
    decide (lo ≤ k) && decide (k < Config.memDepth) && decide (v ≠ Memory.unlisted) && Memory.wfFrom (k + 1) m

/-- The canonical form: addresses strictly rising and below 256, no entry equal to an unlisted cell's content. -/
def Memory.wf (m : Memory) : Bool := m.wfFrom 0

/-- `MemRead(addr, 1)` (20_memory R31): no side effect, at every address. -/
def State.memRead (s : State) (addr : Byte) : Byte := s.mem.read addr.toNat

/-- `Emit(v)`: the byte goes to the end of the output stream (10_state R21). -/
def State.emit (s : State) (v : Byte) : State := { s with out := s.out ++ [v] }

/-- `MemWrite(addr, 1, v)` (20_memory R32): the cell is stored; a store to address 255 also emits the byte, once. -/
def State.memWrite (s : State) (addr v : Byte) : State :=
  let stored := { s with mem := s.mem.write addr.toNat v }
  if addr = Config.outAddr then stored.emit v else stored

/-- `pc <- wrap8(pc + 1)` as a value (10_state R13). -/
def nextCell (pc : Byte) : Byte := wrap8 ((pc.toNat : Int) + 1)

/-- The end of every phase: one clock counted, and the phase that comes next (40_clock_cycle_state_machine R59). -/
def State.endPhase (s : State) (next : MicroState) : State :=
  { s with clockCount := s.clockCount + 1, microState := next }

/-- The first check of a step (60_exceptions R115): with `errorFlag = 1` nothing changes and the outcome is `fault`
(40_clock_cycle_state_machine R73); otherwise the step goes to `s'`. -/
def State.unlessFaulted (s s' : State) : Host.Outcome State Fault Refusal :=
  if s.errorFlag then .fault .steppedWhileFaulted else .next s'

/-- Taking the exception, `raise InvariantViolation` (60_exceptions R110, R116): the flag is set and nothing else
changes; nothing is saved, and `pc` and `microState` stay. -/
def State.raiseInvariantViolation (s : State) : State := { s with errorFlag := true }

/-- The only way out of the fault, `reset()` (60_exceptions R117; 70_reset_and_hazards R130): every item of the block to
zero, `out` unchanged and nothing emitted; the host's own fields are not the block's. -/
def State.hostReset (s : State) : State :=
  { State.reset with out := s.out, calls := s.calls, replies := s.replies, stepping := s.stepping }

end Sys2Proof.Machine
end

