-- ==== Sys2Proof/Machine/IllegalMicroState.lean ====
section
/-! DEFINITION. The four illegal values of `microState` (40_clock_cycle_state_machine R72): the step takes the one
exception. -/

namespace Sys2Proof.Machine

/-- `microState` 12 (R72). -/
def execIllegalMicrostate12 (s : State) : Host.Outcome State Fault Refusal := s.unlessFaulted s.raiseInvariantViolation

/-- `microState` 13 (R72). -/
def execIllegalMicrostate13 (s : State) : Host.Outcome State Fault Refusal := s.unlessFaulted s.raiseInvariantViolation

/-- `microState` 14 (R72). -/
def execIllegalMicrostate14 (s : State) : Host.Outcome State Fault Refusal := s.unlessFaulted s.raiseInvariantViolation

/-- `microState` 15 (R72). -/
def execIllegalMicrostate15 (s : State) : Host.Outcome State Fault Refusal := s.unlessFaulted s.raiseInvariantViolation

end Sys2Proof.Machine
end

