-- ==== Sys2Proof/Syntax.lean ====
section
/-! DEFINITION. The rows of spec/opcode_table.json: the one instruction SUBLEQ (30_encoding R50 to R54), the twelve legal
and the four illegal values of `microState` (30_encoding R55). -/

namespace Sys2Proof

/-- One constructor per row of the opcode table. -/
inductive Instr where
  /-- SUBLEQ A, B, C (41_subleq_instruction R80): the three cells, each an absolute address (R52). -/
  | subleq (a b c : Byte)
  /-- Phase 0 (R60). -/
  | p0AssertPcA
  /-- Phase 1 (R61). -/
  | p1LatchAAddr
  /-- Phase 2 (R62). -/
  | p2AssertMarA
  /-- Phase 3 (R63). -/
  | p3LatchAVal
  /-- Phase 4 (R64). -/
  | p4AssertPcB
  /-- Phase 5 (R65). -/
  | p5LatchBAddr
  /-- Phase 6 (R66). -/
  | p6AssertMarB
  /-- Phase 7 (R67). -/
  | p7LatchBVal
  /-- Phase 8 (R68). -/
  | p8SubStore
  /-- Phase 9 (R69). -/
  | p9AssertPcC
  /-- Phase 10 (R70). -/
  | p10LatchC
  /-- Phase 11 (R71). -/
  | p11Branch
  /-- `microState` 12 (R72). -/
  | illegalMicrostate12
  /-- `microState` 13 (R72). -/
  | illegalMicrostate13
  /-- `microState` 14 (R72). -/
  | illegalMicrostate14
  /-- `microState` 15 (R72). -/
  | illegalMicrostate15
  deriving DecidableEq, Repr

/-- The two formats of the table: three memory cells, or a value of the `microState` register. -/
inductive Format where
  | abc
  | microState4
  deriving DecidableEq, Repr

/-- The format of a row. -/
def Instr.format : Instr → Format
  | .subleq _ _ _ => .abc
  | .p0AssertPcA | .p1LatchAAddr | .p2AssertMarA | .p3LatchAVal | .p4AssertPcB | .p5LatchBAddr
  | .p6AssertMarB | .p7LatchBVal | .p8SubStore | .p9AssertPcC | .p10LatchC | .p11Branch
  | .illegalMicrostate12 | .illegalMicrostate13 | .illegalMicrostate14 | .illegalMicrostate15 => .microState4

end Sys2Proof
end

