-- ==== Sys2Proof/WellFormed.lean ====
section
/-! DEFINITION. Well-formedness. Every operand of an instruction is a `Byte` and every triple of cells is legal
(30_encoding R53, R54, R58: "there is nothing to check"), so every `Instr` is well formed; what can be ill formed is an
encoding: the wrong number of cells, or a value that the 4-bit `microState` cannot hold. -/

namespace Sys2Proof

/-- Every instruction is well formed (30_encoding R53, R58). -/
def Instr.WellFormed : Instr → Bool
  | .subleq _ _ _ => true
  | .p0AssertPcA | .p1LatchAAddr | .p2AssertMarA | .p3LatchAVal | .p4AssertPcB | .p5LatchBAddr
  | .p6AssertMarB | .p7LatchBVal | .p8SubStore | .p9AssertPcC | .p10LatchC | .p11Branch
  | .illegalMicrostate12 | .illegalMicrostate13 | .illegalMicrostate14 | .illegalMicrostate15 => true

/-- The bytes that are one encoding of a format: three cells (30_encoding R51), or one value below 16 (R55). -/
def Format.cellsOk : Format → List Byte → Bool
  | .abc, [_, _, _] => true
  | .microState4, [k] => decide (k.toNat < 16)
  | _, _ => false

end Sys2Proof
end

