-- ==== Sys2Proof/Decode.lean ====
section
/-! DEFINITION. The decoder, total on any bytes and rejecting by name, and after it the encoder
(30_encoding R51, R53, R55, R58). -/

namespace Sys2Proof

/-- Why bytes are no instruction. -/
inductive DecodeError where
  /-- Fewer than the three cells of a SUBLEQ, or no `microState` value at all. -/
  | tooShort
  /-- A value that the 4-bit register `microState` cannot hold. -/
  | notAMicroState
  deriving DecidableEq, Repr

/-- The decoder's answer: an instruction and the bytes after it, or a rejection by name. -/
inductive Decoded where
  | instr (i : Instr) (rest : List Byte)
  | rejected (e : DecodeError)
  deriving DecidableEq, Repr

/-- The row that a value of `microState` selects (30_encoding R55). -/
def decodeMicroState (k : MicroState) : Instr :=
  match k.toNat with
  | 0 => .p0AssertPcA
  | 1 => .p1LatchAAddr
  | 2 => .p2AssertMarA
  | 3 => .p3LatchAVal
  | 4 => .p4AssertPcB
  | 5 => .p5LatchBAddr
  | 6 => .p6AssertMarB
  | 7 => .p7LatchBVal
  | 8 => .p8SubStore
  | 9 => .p9AssertPcC
  | 10 => .p10LatchC
  | 11 => .p11Branch
  | 12 => .illegalMicrostate12
  | 13 => .illegalMicrostate13
  | 14 => .illegalMicrostate14
  | _ => .illegalMicrostate15

/-- The decoder. Every triple of cells is SUBLEQ (30_encoding R53). -/
def decode : Format → List Byte → Decoded
  | .abc, a :: b :: c :: rest => .instr (.subleq a b c) rest
  | .abc, _ => .rejected .tooShort
  | .microState4, k :: rest =>
    if k.toNat < 16 then .instr (decodeMicroState (BitVec.ofNat 4 k.toNat)) rest else .rejected .notAMicroState
  | .microState4, [] => .rejected .tooShort

/-- The instruction the decoder reads from `w`, its bits numbered as the table numbers them: for SUBLEQ, A is bits 23 to
16, B bits 15 to 8, C bits 7 to 0, A at the lowest address (30_encoding R51; log entry 8); for a `microState` row, the
4-bit value in a whole byte. -/
def decodeTableWord (nbits w : Nat) : Option Instr :=
  let d :=
    if nbits = 24 ∧ w < 2 ^ 24 then
      decode .abc [BitVec.ofNat 8 (w / 2 ^ 16), BitVec.ofNat 8 (w / 2 ^ 8), BitVec.ofNat 8 w]
    else if 0 < nbits ∧ nbits ≤ 8 ∧ w < 2 ^ 8 then decode .microState4 [BitVec.ofNat 8 w]
    else .rejected .tooShort
  match d with
  | .instr i [] => some i
  | .instr _ (_ :: _) => none
  | .rejected _ => none

/-- The encoder, from the table of 30_encoding R51 and the table of R55. -/
def encode : Instr → List Byte
  | .subleq a b c => [a, b, c]
  | .p0AssertPcA => [0b0000]
  | .p1LatchAAddr => [0b0001]
  | .p2AssertMarA => [0b0010]
  | .p3LatchAVal => [0b0011]
  | .p4AssertPcB => [0b0100]
  | .p5LatchBAddr => [0b0101]
  | .p6AssertMarB => [0b0110]
  | .p7LatchBVal => [0b0111]
  | .p8SubStore => [0b1000]
  | .p9AssertPcC => [0b1001]
  | .p10LatchC => [0b1010]
  | .p11Branch => [0b1011]
  | .illegalMicrostate12 => [0b1100]
  | .illegalMicrostate13 => [0b1101]
  | .illegalMicrostate14 => [0b1110]
  | .illegalMicrostate15 => [0b1111]

end Sys2Proof
end

