-- ==== Sys2Proof/Machine/Operands.lean ====
section
/-! DEFINITION. The operand forms (30_encoding R51, R52; 41_subleq_instruction R86): the three cells of the instruction
at `pc`, the memory-indirect operands A and B, the direct operand C. -/

namespace Sys2Proof.Machine

/-- The address of the instruction's A cell: `p` (30_encoding R51). -/
def State.aCellAddr (s : State) : Byte := s.pc

/-- The address of its B cell: `wrap8(p + 1)`. -/
def State.bCellAddr (s : State) : Byte := wrap8 ((s.pc.toNat : Int) + 1)

/-- The address of its C cell: `wrap8(p + 2)`. -/
def State.cCellAddr (s : State) : Byte := wrap8 ((s.pc.toNat : Int) + 2)

/-- The address after the instruction: `wrap8(p + 3)` (10_state R15). -/
def State.afterInstr (s : State) : Byte := wrap8 ((s.pc.toNat : Int) + 3)

/-- The three cells at `pc`, as they stand now. -/
def State.instrCells (s : State) : List Byte :=
  [s.memRead s.aCellAddr, s.memRead s.bCellAddr, s.memRead s.cCellAddr]

/-- A memory-indirect operand: the content of the cell that the field names (30_encoding R52). -/
def State.indirect (s : State) (field : Byte) : Byte := s.memRead field

/-- The direct operand C as phase 10 reads it, AFTER the store of `r` at `b` (41_subleq_instruction R88): the stored
result when the store hit the instruction's own C cell, else the cell's content `c`. -/
def State.branchTarget (s : State) (b c r : Byte) : Byte := if b = s.cCellAddr then r else c

/-- A CPU state field as the host reads it (43_host_interface R105). -/
def State.readField (s : State) : StateField → Nat
  | .accA => s.accA.toNat
  | .accB => s.accB.toNat
  | .addrReg => s.addrReg.toNat
  | .pc => s.pc.toNat
  | .microState => s.microState.toNat
  | .errorFlag => s.errorFlag.toNat
  | .instructionCount => s.instructionCount
  | .clockCount => s.clockCount

end Sys2Proof.Machine
end

