-- ==== Sys2Proof/Machine/Flags.lean ====
section
/-! DEFINITION. The subtract unit and the branch condition (41_subleq_instruction R81, R82). The hardware stores no
flag: the condition is computed in phase 11 and kept nowhere (10_state R17). -/

namespace Sys2Proof.Machine

/-- The subtract unit: `wrap8(minuend - subtrahend)` over the integers (41_subleq_instruction R81). -/
def subtract (minuend subtrahend : Byte) : Byte := wrap8 ((minuend.toNat : Int) - (subtrahend.toNat : Int))

/-- The branch condition: the difference over the integers is at most 0 (41_subleq_instruction R82; conflict C1). -/
def taken (minuend subtrahend : Byte) : Bool := decide ((minuend.toNat : Int) - (subtrahend.toNat : Int) ≤ 0)

/-- The branch multiplexer: the next `pc` (41_subleq_instruction R84). -/
def branchMux (isTaken : Bool) (target fallThrough : Byte) : Byte := if isTaken then target else fallThrough

end Sys2Proof.Machine
end

