-- ==== Sys2Proof/Machine/Phases.lean ====
section
/-! DEFINITION. The twelve phases of the clock-cycle state machine (40_clock_cycle_state_machine R60 to R71), each with
the `errorFlag` check of R73 before it. -/

namespace Sys2Proof.Machine

/-- Phase 0: assert `pc` for the A cell (R60). -/
def execP0AssertPcA (s : State) : Host.Outcome State Fault Refusal := s.unlessFaulted (s.endPhase 1)

/-- Phase 1: latch the A cell into `addrReg` (R61). -/
def execP1LatchAAddr (s : State) : Host.Outcome State Fault Refusal :=
  s.unlessFaulted ({ s with addrReg := s.memRead s.pc }.endPhase 2)

/-- Phase 2: assert `addrReg` for the A operand (R62). -/
def execP2AssertMarA (s : State) : Host.Outcome State Fault Refusal := s.unlessFaulted (s.endPhase 3)

/-- Phase 3: latch the A operand into `accA`, increment `pc` (R63). -/
def execP3LatchAVal (s : State) : Host.Outcome State Fault Refusal :=
  s.unlessFaulted ({ s with accA := s.memRead s.addrReg, pc := nextCell s.pc }.endPhase 4)

/-- Phase 4: assert `pc` for the B cell (R64). -/
def execP4AssertPcB (s : State) : Host.Outcome State Fault Refusal := s.unlessFaulted (s.endPhase 5)

/-- Phase 5: latch the B cell into `addrReg` (R65). -/
def execP5LatchBAddr (s : State) : Host.Outcome State Fault Refusal :=
  s.unlessFaulted ({ s with addrReg := s.memRead s.pc }.endPhase 6)

/-- Phase 6: assert `addrReg` for the B operand (R66). -/
def execP6AssertMarB (s : State) : Host.Outcome State Fault Refusal := s.unlessFaulted (s.endPhase 7)

/-- Phase 7: latch the B operand into `accB`, increment `pc` (R67). -/
def execP7LatchBVal (s : State) : Host.Outcome State Fault Refusal :=
  s.unlessFaulted ({ s with accB := s.memRead s.addrReg, pc := nextCell s.pc }.endPhase 8)

/-- Phase 8: subtract and store (R68). The result goes to memory only. -/
def execP8SubStore (s : State) : Host.Outcome State Fault Refusal :=
  s.unlessFaulted ((s.memWrite s.addrReg (subtract s.accB s.accA)).endPhase 9)

/-- Phase 9: assert `pc` for the C cell (R69). -/
def execP9AssertPcC (s : State) : Host.Outcome State Fault Refusal := s.unlessFaulted (s.endPhase 10)

/-- Phase 10: latch the C cell into `addrReg` (R70). -/
def execP10LatchC (s : State) : Host.Outcome State Fault Refusal :=
  s.unlessFaulted ({ s with addrReg := s.memRead s.pc }.endPhase 11)

/-- Phase 11: branch decision and retirement (R71). -/
def execP11Branch (s : State) : Host.Outcome State Fault Refusal :=
  s.unlessFaulted
    ({ s with
        pc := branchMux (taken s.accB s.accA) s.addrReg (nextCell s.pc)
        instructionCount := s.instructionCount + 1 }.endPhase 0)

end Sys2Proof.Machine
end

