-- ==== Sys2Proof/Machine/Subleq.lean ====
section
/-! DEFINITION. The instruction SUBLEQ A, B, C as one effect (41_subleq_instruction R80). -/

namespace Sys2Proof.Machine

/-- SUBLEQ with the cells A = `a`, B = `b`, C = `c` at `pc` (R80): the operands are read, the result is stored (and
emitted when B is 255), the C cell counts as it reads after the store (R88), the branch compares the values read (R82),
and twelve clocks and one retired instruction are counted. -/
def execSubleq (a b c : Byte) (s : State) : Host.Outcome State Fault Refusal :=
  let va := s.indirect a
  let vb := s.indirect b
  let r := subtract vb va
  let target := s.branchTarget b c r
  s.unlessFaulted
    { s.memWrite b r with
      accA := va
      accB := vb
      addrReg := target
      pc := branchMux (taken vb va) target s.afterInstr
      microState := 0
      instructionCount := s.instructionCount + 1
      clockCount := s.clockCount + Config.numPhases }

end Sys2Proof.Machine
end

