-- ==== Sys2Proof/Machine/Dispatch.lean ====
section
/-! DEFINITION. `exec`: one arm per row of the opcode table. -/

namespace Sys2Proof.Machine

def exec (i : Instr) (s : State) : Host.Outcome State Fault Refusal :=
  match i with
  | .subleq a b c => Sys2Proof.Machine.execSubleq a b c s
  | .p0AssertPcA => Sys2Proof.Machine.execP0AssertPcA s
  | .p1LatchAAddr => Sys2Proof.Machine.execP1LatchAAddr s
  | .p2AssertMarA => Sys2Proof.Machine.execP2AssertMarA s
  | .p3LatchAVal => Sys2Proof.Machine.execP3LatchAVal s
  | .p4AssertPcB => Sys2Proof.Machine.execP4AssertPcB s
  | .p5LatchBAddr => Sys2Proof.Machine.execP5LatchBAddr s
  | .p6AssertMarB => Sys2Proof.Machine.execP6AssertMarB s
  | .p7LatchBVal => Sys2Proof.Machine.execP7LatchBVal s
  | .p8SubStore => Sys2Proof.Machine.execP8SubStore s
  | .p9AssertPcC => Sys2Proof.Machine.execP9AssertPcC s
  | .p10LatchC => Sys2Proof.Machine.execP10LatchC s
  | .p11Branch => Sys2Proof.Machine.execP11Branch s
  | .illegalMicrostate12 => Sys2Proof.Machine.execIllegalMicrostate12 s
  | .illegalMicrostate13 => Sys2Proof.Machine.execIllegalMicrostate13 s
  | .illegalMicrostate14 => Sys2Proof.Machine.execIllegalMicrostate14 s
  | .illegalMicrostate15 => Sys2Proof.Machine.execIllegalMicrostate15 s

end Sys2Proof.Machine
end

