-- ==== Sys2Proof/Machine/Cycle.lean ====
section
/-! DEFINITION. The clock step (40_clock_cycle_state_machine R59), the instruction stepper (42_instruction_stepper R95),
the operations of the host (43_host_interface R100 to R109), and the one action that `step` performs. -/

namespace Sys2Proof.Machine

/-- `ClockStep` (R59): the row that `microState` selects, after the `errorFlag` check inside its meaning (R115). -/
def clockStep (s : State) : Host.Outcome State Fault Refusal := exec (decodeMicroState s.microState) s

/-- The loop body of `StepInstruction` run until phase 0, at most `fuel` times: a step that raised the fault ends it
(42_instruction_stepper R95, R97). -/
def runToPhaseZero : Nat → State → Host.Outcome State Fault Refusal
  | 0, s => .next s
  | fuel + 1, s =>
    match clockStep s with
    | .next s' => if s'.errorFlag || decide (s'.microState = 0) then .next s' else runToPhaseZero fuel s'
    | .fault r => .fault r
    | .refused r => .refused r

/-- `StepInstruction` (R95): the loop is bounded by the twelve phases (R96). -/
def stepInstruction (s : State) : Host.Outcome State Fault Refusal := runToPhaseZero Config.numPhases s

/-- Bytes copied into consecutive cells from an address on: a plain copy, nothing is emitted (43_host_interface R102). -/
def Memory.load : Memory → Nat → List Byte → Memory
  | m, _, [] => m
  | m, a, v :: vs => Memory.load (m.write a v) (a + 1) vs

/-- `loadImage(bytes)`: the first 256 bytes go to the low addresses (R102). -/
def State.loadImage (s : State) (bytes : List Byte) : State :=
  { s with mem := s.mem.load 0 (bytes.take Config.memDepth) }

/-- The report of `loadImage` (R102). -/
def loadReport (bytes : List Byte) : HostReply := if Config.memDepth < bytes.length then .truncated else .returned

/-- An address the host may use: 0 to 255 (R106 to R108). -/
def hostAddrOk (x : Int) : Bool := decide (0 ≤ x) && decide (x < (Config.memDepth : Int))

/-- A host operation's report is appended to `replies` (log entry 1). -/
def State.answer (s : State) (r : HostReply) : State := { s with replies := s.replies ++ [r] }

/-- A step operation of the host, with its outcome reported (R103, R104): the state after the step, or, where the step
answers a fault, the state as it was (R73). A step that raised the exception reports it (R72). -/
def reportStep (s : State) : Host.Outcome State Fault Refusal → Host.Outcome State Fault Refusal
  | .next s' => .next (s'.answer (if s'.errorFlag then .fault .illegalMicroState else .stepped))
  | .fault r => .next (s.answer (.fault r))
  | .refused r => .refused r

/-- One host operation (R100), the call already taken off `calls`. -/
def serve (c : HostCall) (s : State) : Host.Outcome State Fault Refusal :=
  match c with
  | .reset => .next (s.hostReset.answer .returned)
  | .loadImage bytes => .next ((s.loadImage bytes).answer (loadReport bytes))
  | .stepClockCycle => reportStep s (clockStep s)
  | .stepInstruction => reportStep s (stepInstruction s)
  | .readState f => .next (s.answer (.value (s.readField f)))
  | .readMemory x =>
    .next (s.answer (if hostAddrOk x then .value (s.memRead (wrap8 x)).toNat else .addressOutOfRange))
  | .writeMemory x v =>
    .next (if hostAddrOk x then (s.memWrite (wrap8 x) (wrap8 v)).answer .returned else s.answer .addressOutOfRange)

/-- One atomic action (00_scope R4): the next pending host call, else the step operation that `stepping` names. -/
def advance (s : State) : Host.Outcome State Fault Refusal :=
  match s.calls with
  | c :: rest => serve c { s with calls := rest }
  | [] =>
    match s.stepping with
    | .clockCycle => clockStep s
    | .instruction => stepInstruction s

/-- The state in which the next action runs the table's instruction `w` (log entry 9): a SUBLEQ's three cells at `pc`,
phase 0 and the instruction stepper; a `microState` value in its register and the clock-cycle stepper. The fault flag is
clear and no host call comes first. -/
def placeInstr (s : State) (nbits w : Nat) : State :=
  if 8 < nbits then
    { s with
      mem := ((s.mem.write s.aCellAddr.toNat (BitVec.ofNat 8 (w / 2 ^ 16))).write s.bCellAddr.toNat
        (BitVec.ofNat 8 (w / 2 ^ 8))).write s.cCellAddr.toNat (BitVec.ofNat 8 w)
      microState := 0
      errorFlag := false
      calls := []
      stepping := .instruction }
  else
    { s with microState := BitVec.ofNat 4 w, errorFlag := false, calls := [], stepping := .clockCycle }

end Sys2Proof.Machine
end

