-- ==== Sys2Proof/Machine/Step.lean ====
section
/-! DEFINITION. The step of the machine: one atomic action of 00_scope R4. -/

namespace Sys2Proof.Machine

/-- One atomic action: the next pending host call, or one step operation of the CPU. -/
def step (s : State) : Host.Outcome State Fault Refusal := advance s

/-- `s` with the table's instruction `w` placed where the next step runs it. -/
def State.withFetchWord (s : State) (nbits w : Nat) : State := placeInstr s nbits w

end Sys2Proof.Machine
end

