-- ==== Sys2Proof/Machine/Assembler.lean ====
section
/-! DEFINITION. The spec's own assembler notation (30_encoding R56) in abstract form: lines of an optional label and an
optional statement. It is presentation, not hardware (decision D11): it serves to read the programs of
95_test_vectors. What R56 leaves open is in log entry 10. -/

namespace Sys2Proof.Machine

/-- `expr` of R56. -/
inductive AsmExpr where
  | number (n : Nat)
  | label (l : String)
  | labelPlus (l : String) (n : Nat)
  | labelMinus (l : String) (n : Nat)
  deriving DecidableEq, Repr

/-- `statement` of R56. -/
inductive AsmStatement where
  | subleq (a b c : AsmExpr)
  | bytes (first : AsmExpr) (more : List AsmExpr)
  | org (address : Nat)
  deriving DecidableEq, Repr

/-- `line` of R56, its comment dropped. -/
structure AsmLine where
  label : Option String
  statement : Option AsmStatement
  deriving DecidableEq, Repr

/-- The expressions a statement assembles to, one cell each: A, B, C in that order for `subleq`. -/
def AsmStatement.cells : AsmStatement → List AsmExpr
  | .subleq a b c => [a, b, c]
  | .bytes e es => e :: es
  | .org _ => []

/-- The address of the next cell assembled, from a place in the program on: the value of a label there (R56).
DESIGN CHOICE, safe (log entry 10): where no cell is assembled after that place, a case R56 does not give, the value is
the address at which assembling would go on. -/
def nextCellAt : Nat → List AsmLine → Nat
  | at', [] => at'
  | at', l :: ls =>
    match l.statement with
    | some (.org n) => nextCellAt n ls
    | some (.subleq _ _ _) => at'
    | some (.bytes _ _) => at'
    | none => nextCellAt at' ls

/-- Where the lines after a statement go on. -/
def afterStatement (at' : Nat) : Option AsmStatement → Nat
  | some (.org n) => n
  | some st => at' + st.cells.length
  | none => at'

/-- Every label with its value. -/
def labelTable : Nat → List AsmLine → List (String × Nat)
  | _, [] => []
  | at', l :: ls =>
    let rest := labelTable (afterStatement at' l.statement) ls
    match l.label with
    | some name => (name, nextCellAt at' (l :: ls)) :: rest
    | none => rest

/-- An expression's value reduced with `wrap8`, as R56 says of the expressions of `subleq`; `none` where its label is not
defined. DESIGN CHOICE, safe (log entry 10): R56 does not say what a `.byte` expression outside 0 to 255 assembles to; the
model reduces it with `wrap8` too. -/
def AsmExpr.value (labels : List (String × Nat)) : AsmExpr → Option Byte
  | .number n => some (wrap8 n)
  | .label l => (labels.lookup l).map fun v => wrap8 v
  | .labelPlus l n => (labels.lookup l).map fun v => wrap8 ((v : Int) + n)
  | .labelMinus l n => (labels.lookup l).map fun v => wrap8 ((v : Int) - n)

/-- Cells laid out from an address on; `none` past the last address or where an expression has no value. -/
def layCells (labels : List (String × Nat)) : Nat → List AsmExpr → Memory → Option Memory
  | _, [], m => some m
  | at', e :: es, m =>
    if at' < Config.memDepth then
      (e.value labels).bind fun v => layCells labels (at' + 1) es (m.write at' v)
    else none

/-- The lines laid out from an address on. -/
def layLines (labels : List (String × Nat)) : Nat → List AsmLine → Memory → Option Memory
  | _, [], m => some m
  | at', l :: ls, m =>
    (layCells labels at' ((l.statement.map AsmStatement.cells).getD []) m).bind fun m' =>
      layLines labels (afterStatement at' l.statement) ls m'

/-- The memory a program assembles to; addresses not assembled are 0 (R56). `none` where a label is defined twice, is
not defined, or a cell lies past address 255. -/
def assemble (program : List AsmLine) : Option Memory :=
  let labels := labelTable 0 program
  if (labels.map Prod.fst).Nodup then layLines labels 0 program [] else none

end Sys2Proof.Machine
end

