-- ==== Sys2Proof/Machine/Signals.lean ====
section
/-! DEFINITION. The informative signal view (20_memory R45) as a function of the state: what each bus carries during the
step that `microState` selects. No meaning depends on it and State holds no bus. -/

namespace Sys2Proof.Machine

/-- Where the sampled read data goes. -/
inductive ReadTarget where
  | accA | accB | addrReg
  deriving DecidableEq, Repr

/-- The content of the register that sampled data goes to. -/
def State.sampled (s : State) : ReadTarget → Byte
  | .accA => s.accA
  | .accB => s.accB
  | .addrReg => s.addrReg

/-- The signals of one step; `none` is the table's dash, "not driven, do not care". -/
structure Signals where
  addr : Option Byte
  we : Bool
  wdata : Option Byte
  rdataTo : Option ReadTarget
  outValid : Bool
  deriving DecidableEq, Repr

/-- Nothing driven: phase 11 (R45), and a fault step, which accesses nothing (40_clock_cycle_state_machine R72, R73). -/
def Signals.idle : Signals := { addr := none, we := false, wdata := none, rdataTo := none, outValid := false }

/-- An assert phase: the address only. -/
def Signals.assert (a : Byte) : Signals := { Signals.idle with addr := some a }

/-- A latch phase: the address, and the register the data goes to. -/
def Signals.latch (a : Byte) (t : ReadTarget) : Signals := { Signals.idle with addr := some a, rdataTo := some t }

/-- The signals of a row's step (R45). SUBLEQ is twelve steps, not one, so it has no signals of its own. -/
def rowSignals (i : Instr) (s : State) : Signals :=
  match i with
  | .p0AssertPcA => Signals.assert s.pc
  | .p1LatchAAddr => Signals.latch s.pc .addrReg
  | .p2AssertMarA => Signals.assert s.addrReg
  | .p3LatchAVal => Signals.latch s.addrReg .accA
  | .p4AssertPcB => Signals.assert s.pc
  | .p5LatchBAddr => Signals.latch s.pc .addrReg
  | .p6AssertMarB => Signals.assert s.addrReg
  | .p7LatchBVal => Signals.latch s.addrReg .accB
  | .p8SubStore =>
    { addr := some s.addrReg, we := true, wdata := some (subtract s.accB s.accA), rdataTo := none,
      outValid := decide (s.addrReg = Config.outAddr) }
  | .p9AssertPcC => Signals.assert s.pc
  | .p10LatchC => Signals.latch s.pc .addrReg
  | .p11Branch => Signals.idle
  | .subleq _ _ _ => Signals.idle
  | .illegalMicrostate12 | .illegalMicrostate13 | .illegalMicrostate14 | .illegalMicrostate15 => Signals.idle

/-- The signals of the next clock step. -/
def State.signals (s : State) : Signals :=
  if s.errorFlag then Signals.idle else rowSignals (decodeMicroState s.microState) s

/-- A memory access (20_memory R37). -/
inductive Access where
  | read (addr : Byte)
  | write (addr value : Byte)
  deriving DecidableEq, Repr

/-- The access a step makes, read off its signals: a write when `we`, a read when the data goes somewhere. -/
def Signals.access (g : Signals) : Option Access :=
  match g.addr, g.we, g.wdata, g.rdataTo with
  | some a, true, some v, _ => some (.write a v)
  | some a, false, _, some _ => some (.read a)
  | _, _, _, _ => none

/-- The accesses of the next `n` clock steps, oldest first, stopping where a step gives no next state. -/
def accessTrace : Nat → State → List Access
  | 0, _ => []
  | n + 1, s =>
    s.signals.access.toList ++
      match exec (decodeMicroState s.microState) s with
      | .next s' => accessTrace n s'
      | .fault _ => []
      | .refused _ => []

end Sys2Proof.Machine
end

