-- ==== Sys2Proof/Machine/WidePc.lean ====
section
/-! DEFINITION. The wide-pc machine of 10_state R14: `pc` stored in W bits, W of 8 or more (or unbounded), incremented
without `wrap8`, loaded in phase 11 by zero extension, and presented to memory as its low 8 bits. It is the OPEN
alternative of 00_scope R2 (`PC_WIDTH`), not the machine of this model. -/

namespace Sys2Proof.Machine

/-- A state of the wide-pc machine: every item but `pc` is `core`'s. -/
structure WideState where
  core : State
  widePc : Nat
  deriving DecidableEq, Repr

/-- The state with `pc[7:0]` for `pc`: what memory and the host's truncated display see. -/
def WideState.narrow (w : WideState) : State := { w.core with pc := BitVec.ofNat 8 w.widePc }

/-- The increment of a W-bit counter (`some W`) or of an unbounded one (`none`). DESIGN CHOICE, unsafe (log entry 13):
the spec leaves open what a W-bit counter does at its own overflow (91_not_in_source N2, decision D1); the model wraps
it modulo `2 ^ W`. -/
def wideInc (width : Option Nat) (pc : Nat) : Nat :=
  match width with
  | some w => (pc + 1) % 2 ^ w
  | none => pc + 1

/-- The wide `pc` after a row's step: incremented in phases 3 and 7, loaded or incremented in phase 11 (R13, R14). -/
def WideState.nextPc (width : Option Nat) (i : Instr) (w : WideState) : Nat :=
  match i with
  | .p3LatchAVal | .p7LatchBVal => wideInc width w.widePc
  | .p11Branch => if taken w.core.accB w.core.accA then w.core.addrReg.toNat else wideInc width w.widePc
  | .p0AssertPcA | .p1LatchAAddr | .p2AssertMarA | .p4AssertPcB | .p5LatchBAddr | .p6AssertMarB | .p8SubStore
  | .p9AssertPcC | .p10LatchC | .illegalMicrostate12 | .illegalMicrostate13 | .illegalMicrostate14
  | .illegalMicrostate15 => w.widePc
  | .subleq _ _ _ => w.widePc

/-- One clock step of the wide-pc machine: every other item moves as it does on the presented state. -/
def wideClockStep (width : Option Nat) (w : WideState) : Host.Outcome WideState Fault Refusal :=
  match clockStep w.narrow with
  | .next s' => .next { core := s', widePc := w.nextPc width (decodeMicroState w.core.microState) }
  | .fault r => .fault r
  | .refused r => .refused r

/-- `n` clock steps of the wide-pc machine, stopping at the first that gives no next state. -/
def wideClockSteps (width : Option Nat) : Nat → WideState → Host.Outcome WideState Fault Refusal
  | 0, w => .next w
  | n + 1, w =>
    match wideClockStep width w with
    | .next w' => wideClockSteps width n w'
    | .fault r => .fault r
    | .refused r => .refused r

end Sys2Proof.Machine
end

