-- ==== Sys2Proof/Safety.lean ====
section
/-! DEFINITION. What counts as a safe state, the invariant of the machine, runs of clock steps, and the spec's convention
for the end of a run. -/

namespace Sys2Proof.Machine

/-- The premises the spec puts on an arbitrary state (10_state R24): no fault, a legal micro-state. -/
def State.Live (s : State) : Bool := !s.errorFlag && decide (s.microState.toNat < Config.numPhases)

/-- The invariant of the machine: memory in canonical form, no fault and a legal micro-state (R75, R113), and the clock
count that of the retired instructions and the phase (10_state R19). -/
def State.Inv (s : State) : Bool :=
  s.mem.wf && s.Live && decide (s.clockCount = Config.numPhases * s.instructionCount + s.microState.toNat)

/-- The host's side of a state left out: what the ten items of the block are (10_state R10). -/
def State.block (s : State) : State := { s with calls := [], replies := [], stepping := .clockCycle }

/-- `n` clock steps, stopping at the first that gives no next state. -/
def clockSteps : Nat → State → Host.Outcome State Fault Refusal
  | 0, s => .next s
  | n + 1, s =>
    match clockStep s with
    | .next s' => clockSteps n s'
    | .fault r => .fault r
    | .refused r => .refused r

/-- The instruction at `h` is of the form `subleq z, z, h` (70_reset_and_hazards R145): `h` is a spin address. -/
def State.SpinForm (s : State) (h z : Byte) : Prop :=
  s.memRead h = z ∧ s.memRead (h + 1) = z ∧ s.memRead (h + 2) = h

/-- The spin in which R145 says that the machine stays for ever: `z` is no cell of the instruction and not the output
cell. -/
def State.SpinAt (s : State) (h z : Byte) : Prop :=
  s.SpinForm h z ∧ z ≠ Config.outAddr ∧ z ≠ h ∧ z ≠ h + 1 ∧ z ≠ h + 2

/-- A state in which a run can end, for a designated spin address `h` (70_reset_and_hazards R145, decision D14): a
phase-0 boundary with `pc = h`, `subleq z, z, h` at `h`, and `M[z] = 0`; and without the fault, because a faulted state
is never a final state of a run (40_clock_cycle_state_machine R73, 60_exceptions R116, decision D5). A definition of the
spec's convention, no behaviour of the hardware. -/
def State.EndOfRun (s : State) (h z : Byte) : Prop :=
  s.errorFlag = false ∧ s.microState = 0 ∧ s.pc = h ∧ s.memRead z = 0 ∧ s.SpinForm h z

/-- The run from `s` ends at `t`, after `n` actions: `t` is the FIRST of its states that is an end for the spin at `h`
(70_reset_and_hazards R145, decision D14). The final memory and output of the run are those of `t`. Every phase-0 boundary
is a state between two actions, because an instruction step goes to the next boundary only. -/
def RunEndsAt (s : State) (h z : Byte) (n : Nat) (t : State) : Prop :=
  Host.Core.run core n s = .next t ∧ t.EndOfRun h z ∧
    ∀ (m : Nat) (u : State), m < n → Host.Core.run core m s = .next u → ¬ u.EndOfRun h z

end Sys2Proof.Machine
end

