-- ==== Sys2Proof/Certificates/Slice0/Obligations.lean ====
section
/-! DEFINITION. The statements for the provers. Each docstring names the rules of spec/ it formalises. -/

open Sys2Proof Sys2Proof.Machine

/-! Encoding and decoding -/

/-- Decode and encode agree in both directions for every format and every row (30_encoding R51, R53, R55, R58). -/
def Obligations.DecodeAndEncodeAgree : Prop :=
  ∀ (f : Format) (bytes : List Byte) (i : Instr) (rest : List Byte),
    decode f bytes = .instr i rest ↔ i.WellFormed = true ∧ i.format = f ∧ bytes = encode i ++ rest

/-- A few words written out from the spec's encodings: the three cells of 95_test_vectors E1 (section 1) and V10
(section 3) in the cell order of 30_encoding R51, and the binary column of R55; and the rejections by name, which are the
model's: that 16 is rejected is its choice of reading a `microState` row from a whole byte below 16 (log entry 8). -/
def Obligations.SpecWordsDecode : Prop :=
  decode .abc [3, 3, 6] = .instr (.subleq 3 3 6) [] ∧
    decode .abc [9, 2, 20, 30] = .instr (.subleq 9 2 20) [30] ∧
    decode .microState4 [0b0000] = .instr .p0AssertPcA [] ∧
    decode .microState4 [0b0011] = .instr .p3LatchAVal [] ∧
    decode .microState4 [0b1000] = .instr .p8SubStore [] ∧
    decode .microState4 [0b1011] = .instr .p11Branch [] ∧
    decode .microState4 [0b1101] = .instr .illegalMicrostate13 [] ∧
    decode .microState4 [0b10000] = .rejected .notAMicroState ∧ decode .abc [3, 3] = .rejected .tooShort

/-- The table's 24-bit drawing: A in bits 23 to 16, B in 15 to 8, C in 7 to 0, every word a SUBLEQ
(30_encoding R51, R53; the numbering is log entry 8). -/
def Obligations.TableWordFieldsAreCells : Prop :=
  ∀ w : Nat, w < 2 ^ 24 →
    ∃ a b c : Byte, decodeTableWord 24 w = some (.subleq a b c) ∧
      a.toNat = w / 65536 ∧ b.toNat = w / 256 % 256 ∧ c.toNat = w % 256

/-! A step runs the decoded row -/

/-- The clock step is the execution of the row that `microState` decodes to (40_clock_cycle_state_machine R59), with
nothing around it when the driver steps by clock, and with the outcome reported when the host called for it
(43_host_interface R103; the host's fields are log entries 1 and 2). -/
def Obligations.StepRunsTheDecodedRow : Prop :=
  ∀ (s : State) (i : Instr) (rest : List HostCall),
    decode .microState4 [s.microState.zeroExtend 8] = .instr i [] → i.WellFormed = true →
      (s.calls = [] → s.stepping = .clockCycle → step s = exec i s) ∧
      (s.calls = .stepClockCycle :: rest →
        step s = reportStep { s with calls := rest } (exec i { s with calls := rest }))

/-- The instruction stepper at phase 0 is the execution of the SUBLEQ whose cells stand at `pc`
(42_instruction_stepper R95, R96; 41_subleq_instruction R80), and so is the host's `stepInstruction()`, which reports
`stepped` (R104). -/
def Obligations.StepRunsTheDecodedSubleq : Prop :=
  ∀ (s : State) (i : Instr) (rest : List HostCall),
    s.errorFlag = false → s.microState = 0 → decode .abc s.instrCells = .instr i [] → i.WellFormed = true →
      (s.calls = [] → s.stepping = .instruction → step s = exec i s) ∧
      (s.calls = .stepInstruction :: rest →
        ∃ t, exec i { s with calls := rest } = .next t ∧ step s = .next (t.answer .stepped))

/-- The model's convention of log entry 9: the very next step runs the instruction that `withFetchWord` places, for
every word of the table's two widths. -/
def Obligations.PlacedInstructionRunsNext : Prop :=
  ∀ (s : State) (w : Nat),
    (w < 2 ^ 24 → ∃ i, decodeTableWord 24 w = some i ∧
      step (s.withFetchWord 24 w) = exec i (s.withFetchWord 24 w) ∧
      ∃ t, step (s.withFetchWord 24 w) = .next t ∧ t.instructionCount = s.instructionCount + 1) ∧
    (w < 16 → ∃ i, decodeTableWord 8 w = some i ∧
      step (s.withFetchWord 8 w) = exec i (s.withFetchWord 8 w) ∧
      ∃ t, step (s.withFetchWord 8 w) = .next t ∧ (t.errorFlag = true ↔ 12 ≤ w))

/-! The twelve phases -/

/-- The five assert phases change `clockCount` and `microState` only
(40_clock_cycle_state_machine R60, R62, R64, R66, R69). -/
def Obligations.AssertPhasesOnlyAdvance : Prop :=
  ∀ s : State, s.errorFlag = false →
    exec .p0AssertPcA s = .next { s with clockCount := s.clockCount + 1, microState := 1 } ∧
    exec .p2AssertMarA s = .next { s with clockCount := s.clockCount + 1, microState := 3 } ∧
    exec .p4AssertPcB s = .next { s with clockCount := s.clockCount + 1, microState := 5 } ∧
    exec .p6AssertMarB s = .next { s with clockCount := s.clockCount + 1, microState := 7 } ∧
    exec .p9AssertPcC s = .next { s with clockCount := s.clockCount + 1, microState := 10 }

/-- Phases 1, 5 and 10 latch the cell at `pc` into `addrReg`; `pc` and all else stay
(40_clock_cycle_state_machine R61, R65, R70). -/
def Obligations.CellLatchPhases : Prop :=
  ∀ s : State, s.errorFlag = false →
    exec .p1LatchAAddr s =
      .next { s with addrReg := s.mem.read s.pc.toNat, clockCount := s.clockCount + 1, microState := 2 } ∧
    exec .p5LatchBAddr s =
      .next { s with addrReg := s.mem.read s.pc.toNat, clockCount := s.clockCount + 1, microState := 6 } ∧
    exec .p10LatchC s =
      .next { s with addrReg := s.mem.read s.pc.toNat, clockCount := s.clockCount + 1, microState := 11 }

/-- Phase 3 loads `accA` and increments `pc` modulo 256 (40_clock_cycle_state_machine R63). -/
def Obligations.PhaseThreeLoadsAccA : Prop :=
  ∀ s : State, s.errorFlag = false →
    ∃ t, exec .p3LatchAVal s = .next t ∧ t.accA = s.mem.read s.addrReg.toNat ∧
      t.pc.toNat = (s.pc.toNat + 1) % 256 ∧
      t = { s with accA := t.accA, pc := t.pc, clockCount := s.clockCount + 1, microState := 4 }

/-- Phase 7 loads `accB` and increments `pc` modulo 256 (40_clock_cycle_state_machine R67). -/
def Obligations.PhaseSevenLoadsAccB : Prop :=
  ∀ s : State, s.errorFlag = false →
    ∃ t, exec .p7LatchBVal s = .next t ∧ t.accB = s.mem.read s.addrReg.toNat ∧
      t.pc.toNat = (s.pc.toNat + 1) % 256 ∧
      t = { s with accB := t.accB, pc := t.pc, clockCount := s.clockCount + 1, microState := 8 }

/-- Phase 8 stores the wrapped difference at `addrReg`, emits it exactly when `addrReg` is 255, and changes no register
(40_clock_cycle_state_machine R68). -/
def Obligations.PhaseEightSubtractsAndStores : Prop :=
  ∀ s : State, s.errorFlag = false →
    ∃ t r, exec .p8SubStore s = .next t ∧ r.toNat = (s.accB.toNat + 256 - s.accA.toNat) % 256 ∧
      t.mem.read s.addrReg.toNat = r ∧
      (∀ a : Nat, a ≠ s.addrReg.toNat → t.mem.read a = s.mem.read a) ∧
      t.out = (if s.addrReg.toNat = 255 then s.out ++ [r] else s.out) ∧
      t = { s with mem := t.mem, out := t.out, clockCount := s.clockCount + 1, microState := 9 }

/-- Phase 11 takes the branch exactly when `accB <= accA` as unsigned numbers and retires the instruction on both paths
(40_clock_cycle_state_machine R71). -/
def Obligations.PhaseElevenDecidesAndRetires : Prop :=
  ∀ s : State, s.errorFlag = false →
    ∃ t, exec .p11Branch s = .next t ∧
      (s.accB.toNat ≤ s.accA.toNat → t.pc = s.addrReg) ∧
      (s.accA.toNat < s.accB.toNat → t.pc.toNat = (s.pc.toNat + 1) % 256) ∧
      t = { s with
        pc := t.pc, instructionCount := s.instructionCount + 1, clockCount := s.clockCount + 1, microState := 0 }

/-! The fault -/

/-- A step on an illegal micro-state sets `errorFlag` and changes nothing else, and its outcome, reported to the host
that called for it, is `fault` (40_clock_cycle_state_machine R72; that `clockCount` stays is the spec's decision D7; that
the step is a next state and the outcome a reply is the model's, log entries 1 and 4). -/
def Obligations.IllegalMicroStateTakesTheFault : Prop :=
  ∀ (s : State) (rest : List HostCall), s.errorFlag = false →
    exec .illegalMicrostate12 s = .next { s with errorFlag := true } ∧
    exec .illegalMicrostate13 s = .next { s with errorFlag := true } ∧
    exec .illegalMicrostate14 s = .next { s with errorFlag := true } ∧
    exec .illegalMicrostate15 s = .next { s with errorFlag := true } ∧
    (12 ≤ s.microState.toNat → s.calls = .stepClockCycle :: rest →
      step s = .next { s with
        calls := rest, errorFlag := true, replies := s.replies ++ [.fault .illegalMicroState] })

/-- With `errorFlag = 1`, whatever `microState` holds, a step changes nothing and its outcome is `fault`
(40_clock_cycle_state_machine R73, the spec's decision D5; log entry 4): the driver's own step and every row's execution answer the fault, and the host's
call is answered by it. -/
def Obligations.FaultedStepChangesNothing : Prop :=
  ∀ (s : State) (rest : List HostCall), s.errorFlag = true →
    (∀ i : Instr, exec i s = .fault .steppedWhileFaulted) ∧
    (s.calls = [] → step s = .fault .steppedWhileFaulted) ∧
    (s.calls = .stepClockCycle :: rest →
      step s = .next { s with calls := rest, replies := s.replies ++ [.fault .steppedWhileFaulted] })

/-- The stepper on a faulted or illegal state returns the fault after one step, with `errorFlag = 1` and nothing else
changed (42_instruction_stepper R97, the spec's decision D8), whether the host calls it or the driver steps by
instruction (the host's reply and the driver's stepping are log entries 1 and 2, the form of the two faults entry 4). -/
def Obligations.StepperReturnsTheFault : Prop :=
  ∀ (s : State) (rest : List HostCall),
    (s.calls = .stepInstruction :: rest →
      (s.errorFlag = true →
        step s = .next { s with calls := rest, replies := s.replies ++ [.fault .steppedWhileFaulted] }) ∧
      (s.errorFlag = false → 12 ≤ s.microState.toNat →
        step s = .next { s with
          calls := rest, errorFlag := true, replies := s.replies ++ [.fault .illegalMicroState] })) ∧
    (s.calls = [] → s.stepping = .instruction →
      (s.errorFlag = true → step s = .fault .steppedWhileFaulted) ∧
      (s.errorFlag = false → 12 ≤ s.microState.toNat → step s = .next { s with errorFlag := true }))

/-- A faulted machine makes no progress and is never final (40_clock_cycle_state_machine R73, 60_exceptions R116,
70_reset_and_hazards R147; the spec's decision D5): without a pending `reset()` it serves the pending host calls, with the
flag, the phase, the registers and the counters as they were and no state the end of a run, and it then stops with the
fault (that it stops only when no call is pending is log entries 1 and 4). -/
def Obligations.FaultedStateIsNeverFinal : Prop :=
  ∀ (s : State) (n : Nat), s.errorFlag = true → HostCall.reset ∉ s.calls →
    (n ≤ s.calls.length →
      ∃ t : State, Host.Core.run core n s = .next t ∧ (∀ h z : Byte, ¬ t.EndOfRun h z) ∧
        t = { s with mem := t.mem, out := t.out, calls := s.calls.drop n, replies := t.replies }) ∧
    (s.calls.length < n → Host.Core.run core n s = .fault .steppedWhileFaulted)

/-- `errorFlag` is set by the fault step alone and cleared by `reset()` alone (10_state R17; 60_exceptions R117). -/
def Obligations.OnlyTheFaultSetsTheFlagOnlyResetClearsIt : Prop :=
  ∀ s t : State, step s = .next t →
    (s.errorFlag = false → t.errorFlag = true → 12 ≤ s.microState.toNat) ∧
    (s.errorFlag = true → t.errorFlag = false → ∃ rest, s.calls = .reset :: rest)

/-- The machine refuses nothing, and it stops only where a faulted CPU is stepped with no host call pending
(40_clock_cycle_state_machine R59, R73). -/
def Obligations.StopsOnlyWhereFaulted : Prop :=
  ∀ s : State, (∀ r, step s ≠ .refused r) ∧
    (∀ r, step s = .fault r ↔ s.errorFlag = true ∧ s.calls = [] ∧ r = .steppedWhileFaulted)

/-! Registers, memory and output over a whole step -/

/-- Each item is written by its own phases only, and every legal step counts one clock (10_state R10 to R13, R16, R18,
R19; 40_clock_cycle_state_machine R75, R76). -/
def Obligations.ItemsAreWrittenByTheirPhasesOnly : Prop :=
  ∀ s : State, s.errorFlag = false → s.microState.toNat < 12 →
    ∃ t, clockStep s = .next t ∧ t.errorFlag = false ∧
      t.microState.toNat = (s.microState.toNat + 1) % 12 ∧ t.clockCount = s.clockCount + 1 ∧
      t.instructionCount = s.instructionCount + (if s.microState.toNat = 11 then 1 else 0) ∧
      (t.accA ≠ s.accA → s.microState.toNat = 3) ∧ (t.accB ≠ s.accB → s.microState.toNat = 7) ∧
      (t.addrReg ≠ s.addrReg → s.microState.toNat ∈ [1, 5, 10]) ∧
      (t.pc ≠ s.pc → s.microState.toNat ∈ [3, 7, 11]) ∧
      (t.mem ≠ s.mem ∨ t.out ≠ s.out → s.microState.toNat = 8) ∧
      t.calls = s.calls ∧ t.replies = s.replies ∧ t.stepping = s.stepping

/-- The output stream only grows, by at most one byte per action, and that byte is what cell 255 then holds
(10_state R21; 20_memory R33, R36, R37): over every action, a whole instruction and every host operation included. -/
def Obligations.OutputGrowsByTheStoredByte : Prop :=
  ∀ s t : State, step s = .next t → t.out = s.out ∨ t.out = s.out ++ [t.mem.read 255]

/-! The instruction -/

/-- The branch condition in its equivalent forms, and that it is neither the sign of the 8-bit result nor its being zero
(41_subleq_instruction R82; conflict C1), with the value of the subtract unit (in R81) that some of the forms speak of. -/
def Obligations.SubtractUnitAndBranchCondition : Prop :=
  (∀ b a : Byte,
    (subtract b a).toNat = (b.toNat + 256 - a.toNat) % 256 ∧ subtract b a = b + (a ^^^ 0xFF) + 1 ∧
    (taken b a = true ↔ (b.toNat : Int) - (a.toNat : Int) ≤ 0) ∧
    (taken b a = true ↔ b.toNat ≤ a.toNat) ∧
    (taken b a = true ↔ b.toNat < a.toNat ∨ subtract b a = 0) ∧
    (taken b a = true ↔ (b.zeroExtend 9 - a.zeroExtend 9).msb = true ∨ b.zeroExtend 9 - a.zeroExtend 9 = 0)) ∧
  ¬ (∀ b a : Byte, taken b a = true ↔ (subtract b a).msb = true ∨ subtract b a = 0) ∧
  ¬ (∀ b a : Byte, taken b a = true ↔ subtract b a = 0)

/-- SUBLEQ completes on every operand in every state without the fault, with exactly the effect of 41_subleq_instruction
R80, the C operand being the stored result when the store hits the instruction's own C cell (R88). -/
def Obligations.SubleqCompletesWithItsEffect : Prop :=
  ∀ (a b c : Byte) (s : State), s.errorFlag = false →
    ∃ t r, exec (.subleq a b c) s = .next t ∧
      r.toNat = ((s.mem.read b.toNat).toNat + 256 - (s.mem.read a.toNat).toNat) % 256 ∧
      t.mem.read b.toNat = r ∧ (∀ x : Nat, x ≠ b.toNat → t.mem.read x = s.mem.read x) ∧
      t.out = (if b.toNat = 255 then s.out ++ [r] else s.out) ∧
      t.accA = s.mem.read a.toNat ∧ t.accB = s.mem.read b.toNat ∧
      (b.toNat = (s.pc.toNat + 2) % 256 → t.addrReg = r) ∧ (b.toNat ≠ (s.pc.toNat + 2) % 256 → t.addrReg = c) ∧
      (t.accB.toNat ≤ t.accA.toNat → t.pc = t.addrReg) ∧
      (t.accA.toNat < t.accB.toNat → t.pc.toNat = (s.pc.toNat + 3) % 256) ∧
      t = { s with
        mem := t.mem, out := t.out, accA := t.accA, accB := t.accB, addrReg := t.addrReg, pc := t.pc,
        microState := 0, instructionCount := s.instructionCount + 1, clockCount := s.clockCount + 12 }

/-- From phase 0 the twelve clock steps have together exactly the effect of 41_subleq_instruction R80: the operands are
read through the cells at `pc`, the C cell is read after the store, the branch compares the values read. -/
def Obligations.TwelveClocksHaveTheInstructionEffect : Prop :=
  ∀ s : State, s.errorFlag = false → s.microState = 0 →
    ∃ t A B a b r, clockSteps 12 s = .next t ∧
      A = s.mem.read s.pc.toNat ∧ a = s.mem.read A.toNat ∧
      B = s.mem.read ((s.pc.toNat + 1) % 256) ∧ b = s.mem.read B.toNat ∧
      r.toNat = (b.toNat + 256 - a.toNat) % 256 ∧
      t.mem.read B.toNat = r ∧ (∀ x : Nat, x ≠ B.toNat → t.mem.read x = s.mem.read x) ∧
      t.out = (if B.toNat = 255 then s.out ++ [r] else s.out) ∧
      t.accA = a ∧ t.accB = b ∧ t.addrReg = t.mem.read ((s.pc.toNat + 2) % 256) ∧
      (b.toNat ≤ a.toNat → t.pc = t.addrReg) ∧
      (a.toNat < b.toNat → t.pc.toNat = (s.pc.toNat + 3) % 256) ∧
      t = { s with
        mem := t.mem, out := t.out, accA := a, accB := b, addrReg := t.addrReg, pc := t.pc,
        microState := 0, instructionCount := s.instructionCount + 1, clockCount := s.clockCount + 12 }

/-- The micro-operations refine the instruction: from phase 0 twelve clock steps give the very state that the execution
of the decoded SUBLEQ gives (41_subleq_instruction R80, R88; 30_encoding R50, R58). -/
def Obligations.TwelveClocksRefineSubleq : Prop :=
  ∀ (s : State) (a b c : Byte), s.errorFlag = false → s.microState = 0 →
    decode .abc s.instrCells = .instr (.subleq a b c) [] →
      clockSteps 12 s = exec (.subleq a b c) s ∧ ∃ t, exec (.subleq a b c) s = .next t

/-- The store hits the instruction's own C cell: the branch goes to the stored result (41_subleq_instruction R88). -/
def Obligations.StoreIntoOwnCCellMovesTheTarget : Prop :=
  ∀ s : State, s.errorFlag = false → s.microState = 0 → s.memRead (s.pc + 1) = s.pc + 2 →
    ∃ t, clockSteps 12 s = .next t ∧
      t.memRead (s.pc + 2) = s.memRead (s.pc + 2) - s.memRead (s.memRead s.pc) ∧
      t.addrReg = s.memRead (s.pc + 2) - s.memRead (s.memRead s.pc) ∧
      t.pc =
        (if (s.memRead (s.pc + 2)).toNat ≤ (s.memRead (s.memRead s.pc)).toNat then
          s.memRead (s.pc + 2) - s.memRead (s.memRead s.pc)
        else s.pc + 3)

/-- The store hits the instruction's own A or B cell: the current instruction runs on the cells as fetched, and the new
content stands in the cell for the next fetch (41_subleq_instruction R89). -/
def Obligations.StoreIntoOwnAOrBCellIsSeenLater : Prop :=
  ∀ s : State, s.errorFlag = false → s.microState = 0 →
    let A := s.memRead s.pc
    let B := s.memRead (s.pc + 1)
    (B = s.pc ∨ B = s.pc + 1) →
      ∃ t, clockSteps 12 s = .next t ∧ t.accA = s.memRead A ∧ t.accB = s.memRead B ∧
        (B = s.pc → t.accB = A ∧ t.memRead s.pc = A - s.memRead A) ∧
        (B = s.pc + 1 → t.accB = B ∧ t.memRead (s.pc + 1) = B - s.memRead A) ∧
        t.addrReg = s.memRead (s.pc + 2) ∧
        t.pc = (if (s.memRead B).toNat ≤ (s.memRead A).toNat then s.memRead (s.pc + 2) else s.pc + 3)

/-- The output cell as an operand: B = 255 emits exactly the stored byte, also when nothing changes; A = 255 emits
nothing; A = B = 255 emits 0 and branches (41_subleq_instruction R87; 20_memory R33). -/
def Obligations.OutputCellAsOperand : Prop :=
  ∀ s : State, s.errorFlag = false → s.microState = 0 →
    let A := s.memRead s.pc
    let B := s.memRead (s.pc + 1)
    ∃ t, clockSteps 12 s = .next t ∧
      (B = 255 → t.out = s.out ++ [s.memRead 255 - s.memRead A] ∧ t.memRead 255 = s.memRead 255 - s.memRead A) ∧
      (B ≠ 255 → t.out = s.out ∧ t.memRead 255 = s.memRead 255) ∧
      (A = 255 → t.accA = s.memRead 255) ∧
      (A = 255 → B = 255 → t.out = s.out ++ [0] ∧ t.memRead 255 = 0 ∧ t.pc = t.addrReg)

/-- The accesses of one instruction, in the order they happen: five reads and one write (20_memory R37). They are read off
the informative signal view (`State.signals`, 20_memory R45, the spec's decision D15), not off `exec`. -/
def Obligations.SixAccessesInOrder : Prop :=
  ∀ s : State, s.errorFlag = false → s.microState = 0 →
    let A := s.memRead s.pc
    let B := s.memRead (s.pc + 1)
    accessTrace 12 s =
      [.read s.pc, .read A, .read (s.pc + 1), .read B, .write B (s.memRead B - s.memRead A), .read (s.pc + 2)]

/-- Each assert phase presents the address that the next step's latch reads through and leaves memory as it is; the latch
loads the content which that cell has at the latch step into the register its data goes to: `accA` after phase 2, `accB`
after phase 6, `addrReg` after the others (20_memory R44, R46). Address and register are read off the signal view
(`State.signals`, R45, the spec's decision D15); the instant of the sampling is the spec's decision D16. -/
def Obligations.AssertPresentsTheLatchedAddress : Prop :=
  ∀ s : State, s.errorFlag = false → s.microState.toNat ∈ [0, 2, 4, 6, 9] →
    ∃ a r t u, s.signals = Signals.assert a ∧ clockStep s = .next t ∧ t.mem = s.mem ∧
      t.signals = Signals.latch a r ∧ t.signals.access = some (.read a) ∧ t.signals.we = false ∧
      (r = .accA ↔ s.microState = 2) ∧ (r = .accB ↔ s.microState = 6) ∧
      clockStep t = .next u ∧ u.sampled r = t.mem.read a.toNat

/-- In the signal view a byte is emitted exactly in the step whose `out_valid` is 1, and it is the write data
(20_memory R45). -/
def Obligations.OutValidStrobesTheEmission : Prop :=
  ∀ s t : State, clockStep s = .next t →
    t.out = s.out ++ (if s.signals.outValid = true then s.signals.wdata.toList else []) ∧
    (s.signals.outValid = true ↔ s.microState = 8 ∧ s.addrReg = 255) ∧
    (s.signals.we = true ↔ s.microState = 8)

/-! The cycle and the stepper -/

/-- From a legal state at phase k the next 12 - k steps run through the phases and end at phase 0, and no shorter
non-empty run of steps does (40_clock_cycle_state_machine R74). -/
def Obligations.CycleReturnsAfterTheRemainingPhases : Prop :=
  ∀ s : State, s.errorFlag = false → s.microState.toNat < 12 →
    (∃ t, clockSteps (12 - s.microState.toNat) s = .next t ∧ t.microState = 0) ∧
    ∀ n : Nat, n < 12 - s.microState.toNat →
      ∃ t, clockSteps n s = .next t ∧ t.microState.toNat = s.microState.toNat + n

/-- The stepper from a legal state at phase k performs exactly 12 - k clock steps, ends at phase 0 and retires exactly one
instruction (42_instruction_stepper R96). That is what a step of the driver that steps by instruction does, and what the
host's `stepInstruction()` does, which reports `stepped` (41_subleq_instruction R92, 43_host_interface R104; the host's
fields are log entries 1 and 2). -/
def Obligations.StepperRunsTheRemainingPhases : Prop :=
  ∀ (s : State) (rest : List HostCall), s.errorFlag = false → s.microState.toNat < 12 →
    ∃ t, stepInstruction s = .next t ∧ clockSteps (12 - s.microState.toNat) s = .next t ∧
      t.microState = 0 ∧ t.errorFlag = false ∧ t.instructionCount = s.instructionCount + 1 ∧
      t.clockCount = s.clockCount + (12 - s.microState.toNat) ∧
      (s.calls = [] → s.stepping = .instruction → step s = .next t) ∧
      (s.calls = .stepInstruction :: rest →
        step s = .next { t with calls := rest, replies := s.replies ++ [.stepped] })

/-- Every instruction takes twelve clock steps: after n whole instructions the counters have risen by 12 n and n
(70_reset_and_hazards R149). -/
def Obligations.EveryInstructionTakesTwelveClocks : Prop :=
  ∀ (s : State) (n : Nat), s.errorFlag = false → s.microState = 0 → s.calls = [] → s.stepping = .instruction →
    ∃ t, Host.Core.run core n s = .next t ∧ t.microState = 0 ∧ t.errorFlag = false ∧
      t.clockCount = s.clockCount + 12 * n ∧ t.instructionCount = s.instructionCount + n

/-- At a phase-0 boundary the behaviour depends on `mem`, `pc` and `errorFlag` alone: two machines that agree there go
on in step, emit the same bytes and hold the same registers after the first instruction (41_subleq_instruction R91). -/
def Obligations.BehaviourDependsOnMemoryAndPcAlone : Prop :=
  ∀ (s s' : State) (n : Nat),
    s.errorFlag = false → s'.errorFlag = false → s.microState = 0 → s'.microState = 0 →
    s.calls = [] → s'.calls = [] → s.stepping = .instruction → s'.stepping = .instruction →
    s.mem = s'.mem → s.pc = s'.pc →
      ∃ t t' emitted, Host.Core.run core n s = .next t ∧ Host.Core.run core n s' = .next t' ∧
        t.mem = t'.mem ∧ t.pc = t'.pc ∧ t.out = s.out ++ emitted ∧ t'.out = s'.out ++ emitted ∧
        (0 < n → t.accA = t'.accA ∧ t.accB = t'.accB ∧ t.addrReg = t'.addrReg)

/-! The invariant -/

/-- The state after reset meets the invariant (10_state R23). -/
def Obligations.ResetMeetsTheInvariant : Prop := State.reset.Inv = true

/-- Every action, host operations included, keeps the invariant: the canonical memory, no fault, a legal micro-state,
and `clockCount = 12 * instructionCount + microState` (10_state R19, R22; 40_clock_cycle_state_machine R75). -/
def Obligations.EveryActionKeepsTheInvariant : Prop :=
  ∀ s t : State, s.Inv = true → step s = .next t → t.Inv = true

/-- In every state of the invariant the machine takes its next action: it neither faults nor refuses
(40_clock_cycle_state_machine R75). -/
def Obligations.InvariantStatesAlwaysStep : Prop := ∀ s : State, s.Inv = true → ∃ t, step s = .next t

/-- The fault is unreachable from reset, by any sequence of clock steps and host operations (60_exceptions R113). -/
def Obligations.FaultIsUnreachableFromReset : Prop :=
  ∀ (calls : List HostCall) (stepping : Stepping) (out : List Byte) (n : Nat),
    ∃ t : State,
      Host.Core.run core n { State.reset with calls := calls, stepping := stepping, out := out } = .next t ∧
        t.errorFlag = false ∧ t.microState.toNat < 12

/-! The host's operations -/

/-- `reset()` sets the whole CPU state and the whole memory to zero from any state, reports nothing and leaves `out`
(70_reset_and_hazards R130, R131; 10_state R23; that `out` stays and nothing is emitted are the spec's decisions D12 and
D13; the reply is log entry 1). -/
def Obligations.ResetZeroesEverythingButTheOutput : Prop :=
  ∀ (s : State) (rest : List HostCall), s.calls = .reset :: rest →
    ∃ t, step s = .next t ∧ (∀ a : Nat, t.mem.read a = 0) ∧ t.mem.wf = true ∧
      t = { s with
        mem := t.mem, accA := 0, accB := 0, addrReg := 0, pc := 0, microState := 0, errorFlag := false,
        instructionCount := 0, clockCount := 0, calls := rest, replies := s.replies ++ [.returned] }

/-- `loadImage(bytes)` copies the first 256 bytes to the low addresses, touches no other cell and no register, emits
nothing, and reports `truncated` exactly for a longer image (43_host_interface R102; no emission is the spec's decision D12; the reply is log entry 1). -/
def Obligations.LoadImageCopiesAPrefix : Prop :=
  ∀ (s : State) (bytes : List Byte) (rest : List HostCall), s.calls = .loadImage bytes :: rest →
    ∃ t, step s = .next t ∧
      (∀ a : Nat, a < min bytes.length 256 → bytes[a]? = some (t.mem.read a)) ∧
      (∀ a : Nat, min bytes.length 256 ≤ a → t.mem.read a = s.mem.read a) ∧
      t = { s with
        mem := t.mem, calls := rest,
        replies := s.replies ++ [if 256 < bytes.length then HostReply.truncated else HostReply.returned] }

/-- A host write in range is the side-effecting write: the wrapped value is stored, and emitted at address 255; no
register changes (43_host_interface R107, the spec's decision D12; the reply is log entry 1). -/
def Obligations.HostWriteStoresAndEmits : Prop :=
  ∀ (s : State) (x v : Int) (rest : List HostCall), s.calls = .writeMemory x v :: rest → 0 ≤ x → x ≤ 255 →
    ∃ t, step s = .next t ∧ ((t.mem.read x.toNat).toNat : Int) = v % 256 ∧
      (∀ a : Nat, a ≠ x.toNat → t.mem.read a = s.mem.read a) ∧
      t.out = (if x = 255 then s.out ++ [t.mem.read 255] else s.out) ∧
      t = { s with mem := t.mem, out := t.out, calls := rest, replies := s.replies ++ [.returned] }

/-- The host reads any CPU field and any cell in range, and reading changes nothing (43_host_interface R105, R106). -/
def Obligations.HostReadsChangeNothing : Prop :=
  ∀ (s : State) (rest : List HostCall),
    (s.calls = .readState .accA :: rest →
      step s = .next { s with calls := rest, replies := s.replies ++ [.value s.accA.toNat] }) ∧
    (s.calls = .readState .accB :: rest →
      step s = .next { s with calls := rest, replies := s.replies ++ [.value s.accB.toNat] }) ∧
    (s.calls = .readState .addrReg :: rest →
      step s = .next { s with calls := rest, replies := s.replies ++ [.value s.addrReg.toNat] }) ∧
    (s.calls = .readState .pc :: rest →
      step s = .next { s with calls := rest, replies := s.replies ++ [.value s.pc.toNat] }) ∧
    (s.calls = .readState .microState :: rest →
      step s = .next { s with calls := rest, replies := s.replies ++ [.value s.microState.toNat] }) ∧
    (s.calls = .readState .errorFlag :: rest →
      step s = .next { s with
        calls := rest, replies := s.replies ++ [.value (if s.errorFlag = true then 1 else 0)] }) ∧
    (s.calls = .readState .instructionCount :: rest →
      step s = .next { s with calls := rest, replies := s.replies ++ [.value s.instructionCount] }) ∧
    (s.calls = .readState .clockCount :: rest →
      step s = .next { s with calls := rest, replies := s.replies ++ [.value s.clockCount] }) ∧
    ∀ a : Nat, a < 256 → s.calls = .readMemory a :: rest →
      step s = .next { s with calls := rest, replies := s.replies ++ [.value (s.mem.read a).toNat] }

/-- A host read or write outside 0 to 255 changes nothing, emits nothing and reports `AddressOutOfRange`; `errorFlag`
stays (43_host_interface R108). -/
def Obligations.OutOfRangeHostAddressIsRejected : Prop :=
  ∀ (s : State) (x v : Int) (rest : List HostCall), x < 0 ∨ 255 < x →
    (s.calls = .readMemory x :: rest →
      step s = .next { s with calls := rest, replies := s.replies ++ [.addressOutOfRange] }) ∧
    (s.calls = .writeMemory x v :: rest →
      step s = .next { s with calls := rest, replies := s.replies ++ [.addressOutOfRange] })

/-- A host write between an assert phase and its latch phase is what the latch reads, in every latch phase: through `pc`
into `addrReg` in phases 1, 5 and 10, through `addrReg` into `accA` in phase 3 and into `accB` in phase 7 (20_memory R46;
70_reset_and_hazards R146; the spec's decision D16; the two replies are log entry 1). -/
def Obligations.LatchSeesALateHostWrite : Prop :=
  ∀ (s : State) (v : Int), s.errorFlag = false →
    (s.microState.toNat ∈ [1, 5, 10] → s.calls = [.writeMemory s.pc.toNat v, .stepClockCycle] →
      ∃ t : State, Host.Core.run core 2 s = .next t ∧ (t.addrReg.toNat : Int) = v % 256 ∧
        t.replies = s.replies ++ [.returned, .stepped]) ∧
    (s.microState.toNat ∈ [3, 7] → s.calls = [.writeMemory s.addrReg.toNat v, .stepClockCycle] →
      ∃ t : State, Host.Core.run core 2 s = .next t ∧
        (s.microState = 3 → (t.accA.toNat : Int) = v % 256) ∧
        (s.microState = 7 → (t.accB.toNat : Int) = v % 256) ∧
        t.replies = s.replies ++ [.returned, .stepped])

/-- The boot sequence from any state: `reset()` then `loadImage` leaves the image over zeroed memory, phase 0, the entry
point 0, and the invariant (70_reset_and_hazards R133, R134). That `out` is as before rests on the spec's decisions D12
(neither the load nor the zeroing emits) and D13 (reset leaves `out`), in the model's log entry 6. -/
def Obligations.BootLeavesTheImageAtTheEntryPoint : Prop :=
  ∀ (s : State) (bytes : List Byte), s.calls = [.reset, .loadImage bytes] →
    ∃ t : State, Host.Core.run core 2 s = .next t ∧ t.Inv = true ∧ t.pc = 0 ∧ t.microState = 0 ∧ t.out = s.out ∧
      t.calls = [] ∧ ∀ a : Nat, t.mem.read a = (bytes.take 256).getD a 0

/-! Programs' idioms and hazards -/

/-- "clear and go": A = B clears the cell and always branches to C; as a jump through a cell that is 0 it changes no
cell (30_encoding R57; 41_subleq_instruction R86). -/
def Obligations.ClearAndJumpIdioms : Prop :=
  ∀ s : State, s.errorFlag = false → s.microState = 0 →
    s.memRead s.pc = s.memRead (s.pc + 1) → s.memRead (s.pc + 1) ≠ s.pc + 2 →
      ∃ t, clockSteps 12 s = .next t ∧ t.memRead (s.memRead s.pc) = 0 ∧ t.pc = s.memRead (s.pc + 2) ∧
        (s.memRead (s.memRead s.pc) = 0 → ∀ a : Nat, t.mem.read a = s.mem.read a)

/-- Running into zeroed memory: three zero cells clear cell 0 and restart at address 0 (70_reset_and_hazards R143). -/
def Obligations.ZeroTripleClearsCellZeroAndRestarts : Prop :=
  ∀ s : State, s.errorFlag = false → s.microState = 0 →
    s.memRead s.pc = 0 → s.memRead (s.pc + 1) = 0 → s.memRead (s.pc + 2) = 0 →
      ∃ t, clockSteps 12 s = .next t ∧ t.pc = 0 ∧ t.microState = 0 ∧ t.mem.read 0 = 0 ∧ t.out = s.out ∧
        ∀ a : Nat, a ≠ 0 → t.mem.read a = s.mem.read a

/-- The spin: a machine that reaches `subleq z, z, h` at `h` is at the spec's end of the run at once when `M[z]` is 0 and
after one pass otherwise, and from there stays for ever, no cell and no output changing (70_reset_and_hazards R145,
the spec's convention, decision D14). -/
def Obligations.SpinStaysForEver : Prop :=
  ∀ (s : State) (h z : Byte) (n : Nat),
    s.errorFlag = false → s.calls = [] → s.stepping = .instruction →
    s.SpinAt h z → s.microState = 0 → s.pc = h →
      (∃ t, step s = .next t ∧ t.SpinAt h z ∧ t.EndOfRun h z ∧ t.out = s.out) ∧
      (s.EndOfRun h z →
        ∃ t : State, Host.Core.run core n s = .next t ∧ t.SpinAt h z ∧ t.EndOfRun h z ∧ t.out = s.out ∧
          ∀ a : Nat, t.mem.read a = s.mem.read a)

/-- A machine that reaches the spin ends its run there (70_reset_and_hazards R145, the spec's convention, decision D14): at
once when `M[z]` is 0, whatever `z` is; otherwise, for a `z` that is not 255 and no cell of the spin, at the end of the
first pass, which sets `M[z]` to 0 and changes no other cell and not the output: one instruction step or twelve clock
steps of the driver (log entry 2). -/
def Obligations.ReachingTheSpinEndsTheRun : Prop :=
  ∀ (s : State) (h z : Byte),
    s.errorFlag = false → s.calls = [] → s.SpinForm h z → s.microState = 0 → s.pc = h →
      (s.memRead z = 0 → RunEndsAt s h z 0 s) ∧
      (s.memRead z ≠ 0 → s.SpinAt h z →
        ∃ t, RunEndsAt s h z (if s.stepping = .instruction then 1 else 12) t ∧ t.out = s.out ∧
          ∀ a : Nat, a ≠ z.toNat → t.mem.read a = s.mem.read a)

/-- The end of a run is one state, and it is final (70_reset_and_hazards R145, decision D14): no other state is the end of
the same run, and, with no host call pending there, every later state of the run, between clock steps or between
instructions, has the same memory and is the end of the run again at every phase-0 boundary. The output is the same too
when `z` is not 255; on the output cell itself each pass emits a 0 (41_subleq_instruction R87). -/
def Obligations.TheEndOfARunIsFinal : Prop :=
  ∀ (s t : State) (h z : Byte) (n : Nat), RunEndsAt s h z n t →
    (∀ (n' : Nat) (t' : State), RunEndsAt s h z n' t' → n' = n ∧ t' = t) ∧
    (t.calls = [] → ∀ m : Nat, ∃ (u : State) (k : Nat), Host.Core.run core (n + m) s = .next u ∧
      (∀ a : Nat, u.mem.read a = t.mem.read a) ∧ u.out = t.out ++ List.replicate k 0 ∧ (z ≠ 255 → k = 0) ∧
      u.errorFlag = false ∧ (u.microState = 0 → u.EndOfRun h z))

/-- The wide-pc machine and the 8-bit machine agree after every step on every item and on `pc[7:0]`, in both directions
(10_state R14, about the alternative to the spec's decision D1). That a counter of finite width wraps at its own overflow
is the model's choice (log entry 13). -/
def Obligations.WidePcMachineAgrees : Prop :=
  ∀ (width : Option Nat) (n : Nat) (w : WideState), (∀ k, width = some k → 8 ≤ k) →
    (∀ w', wideClockSteps width n w = .next w' → clockSteps n w.narrow = .next w'.narrow) ∧
    (∀ t, clockSteps n w.narrow = .next t → ∃ w', wideClockSteps width n w = .next w' ∧ w'.narrow = t)

/-- A `subleq a, b, c` statement at an address assembles to the three cells in that order, each expression reduced with
`wrap8`, and cells not assembled are 0 (30_encoding R56, the spec's own notation, decision D11; log entry 10). -/
def Obligations.SubleqStatementAssemblesToItsCells : Prop :=
  ∀ p a b c : Nat, p + 2 < 256 →
    ∃ m, assemble
        [{ label := none, statement := some (.org p) },
          { label := none, statement := some (.subleq (.number a) (.number b) (.number c)) }] = some m ∧
      (m.read p).toNat = a % 256 ∧ (m.read (p + 1)).toNat = b % 256 ∧ (m.read (p + 2)).toNat = c % 256 ∧
      ∀ x : Nat, x < p ∨ p + 2 < x → m.read x = 0
end

