-- ==== Sys2Proof/Laws/Arith.lean ====
section
/-! SUPPORT. The exact arithmetic of the operations in plain terms: `wrap8` of the spec against byte arithmetic. -/

namespace Sys2Proof.Machine

theorem wrap8_toNat (x : Int) : ((wrap8 x).toNat : Int) = x % 256 := by
  have h : (wrap8 x).toNat = (x % 2 ^ 8).toNat := by simp [wrap8, BitVec.toNat_ofInt]
  rw [h]; omega

theorem wrap8_eq_iff (x : Int) (v : Byte) : wrap8 x = v ↔ x % 256 = (v.toNat : Int) := by
  rw [← BitVec.toNat_inj, ← wrap8_toNat]; omega

/-- `pc <- wrap8(pc + 1)` is the increment of the 8-bit register (10_state R13). -/
@[simp] theorem nextCell_eq (pc : Byte) : nextCell pc = pc + 1 := by
  rw [nextCell, wrap8_eq_iff, BitVec.toNat_add]; simp

@[simp] theorem bCellAddr_eq (s : State) : s.bCellAddr = s.pc + 1 := by
  rw [State.bCellAddr, wrap8_eq_iff, BitVec.toNat_add]; simp

@[simp] theorem cCellAddr_eq (s : State) : s.cCellAddr = s.pc + 2 := by
  rw [State.cCellAddr, wrap8_eq_iff, BitVec.toNat_add]; simp

@[simp] theorem afterInstr_eq (s : State) : s.afterInstr = s.pc + 3 := by
  rw [State.afterInstr, wrap8_eq_iff, BitVec.toNat_add]; simp

/-- The subtract unit is byte subtraction (41_subleq_instruction R81). -/
@[simp] theorem subtract_eq (b a : Byte) : subtract b a = b - a := by
  rw [subtract, wrap8_eq_iff, BitVec.toNat_sub]
  have := a.isLt; have := b.isLt
  omega

/-- The branch condition is the unsigned comparison of the two bytes (41_subleq_instruction R82). -/
@[simp] theorem taken_eq (b a : Byte) : taken b a = decide (b.toNat ≤ a.toNat) := by
  simp [taken]

/-- The subtract unit's result as a number (41_subleq_instruction R81). -/
theorem sub_toNat (b a : Byte) : (b - a).toNat = (b.toNat + 256 - a.toNat) % 256 := by
  rw [BitVec.toNat_sub]; have := a.isLt; have := b.isLt; omega

theorem eq_outAddr_iff (a : Byte) : a = Config.outAddr ↔ a.toNat = 255 := by rw [← BitVec.toNat_inj]; rfl

/-- A host address in range is the byte with that value (43_host_interface R106, R107). -/
theorem wrap8_toNat_of_range {x : Int} (h0 : 0 ≤ x) (h1 : x ≤ 255) : (wrap8 x).toNat = x.toNat := by
  have := wrap8_toNat x; omega

end Sys2Proof.Machine
end

