-- ==== Sys2Proof/Laws/State.lean ====
section
/-! SUPPORT. One lemma per field per update of the state, so that no proof unfolds a record update. -/

namespace Sys2Proof.Machine

/-! `emit` -/

@[simp] theorem State.emit_mem (s : State) (v : Byte) :
    (s.emit v).mem = s.mem := rfl

@[simp] theorem State.emit_accA (s : State) (v : Byte) :
    (s.emit v).accA = s.accA := rfl

@[simp] theorem State.emit_accB (s : State) (v : Byte) :
    (s.emit v).accB = s.accB := rfl

@[simp] theorem State.emit_addrReg (s : State) (v : Byte) :
    (s.emit v).addrReg = s.addrReg := rfl

@[simp] theorem State.emit_pc (s : State) (v : Byte) :
    (s.emit v).pc = s.pc := rfl

@[simp] theorem State.emit_microState (s : State) (v : Byte) :
    (s.emit v).microState = s.microState := rfl

@[simp] theorem State.emit_errorFlag (s : State) (v : Byte) :
    (s.emit v).errorFlag = s.errorFlag := rfl

@[simp] theorem State.emit_instructionCount (s : State) (v : Byte) :
    (s.emit v).instructionCount = s.instructionCount := rfl

@[simp] theorem State.emit_clockCount (s : State) (v : Byte) :
    (s.emit v).clockCount = s.clockCount := rfl

@[simp] theorem State.emit_out (s : State) (v : Byte) :
    (s.emit v).out = s.out ++ [v] := rfl

@[simp] theorem State.emit_calls (s : State) (v : Byte) :
    (s.emit v).calls = s.calls := rfl

@[simp] theorem State.emit_replies (s : State) (v : Byte) :
    (s.emit v).replies = s.replies := rfl

@[simp] theorem State.emit_stepping (s : State) (v : Byte) :
    (s.emit v).stepping = s.stepping := rfl

/-! `endPhase` -/

@[simp] theorem State.endPhase_mem (s : State) (k : MicroState) :
    (s.endPhase k).mem = s.mem := rfl

@[simp] theorem State.endPhase_accA (s : State) (k : MicroState) :
    (s.endPhase k).accA = s.accA := rfl

@[simp] theorem State.endPhase_accB (s : State) (k : MicroState) :
    (s.endPhase k).accB = s.accB := rfl

@[simp] theorem State.endPhase_addrReg (s : State) (k : MicroState) :
    (s.endPhase k).addrReg = s.addrReg := rfl

@[simp] theorem State.endPhase_pc (s : State) (k : MicroState) :
    (s.endPhase k).pc = s.pc := rfl

@[simp] theorem State.endPhase_microState (s : State) (k : MicroState) :
    (s.endPhase k).microState = k := rfl

@[simp] theorem State.endPhase_errorFlag (s : State) (k : MicroState) :
    (s.endPhase k).errorFlag = s.errorFlag := rfl

@[simp] theorem State.endPhase_instructionCount (s : State) (k : MicroState) :
    (s.endPhase k).instructionCount = s.instructionCount := rfl

@[simp] theorem State.endPhase_clockCount (s : State) (k : MicroState) :
    (s.endPhase k).clockCount = s.clockCount + 1 := rfl

@[simp] theorem State.endPhase_out (s : State) (k : MicroState) :
    (s.endPhase k).out = s.out := rfl

@[simp] theorem State.endPhase_calls (s : State) (k : MicroState) :
    (s.endPhase k).calls = s.calls := rfl

@[simp] theorem State.endPhase_replies (s : State) (k : MicroState) :
    (s.endPhase k).replies = s.replies := rfl

@[simp] theorem State.endPhase_stepping (s : State) (k : MicroState) :
    (s.endPhase k).stepping = s.stepping := rfl

/-! `memWrite` -/

@[simp] theorem State.memWrite_mem (s : State) (a v : Byte) :
    (s.memWrite a v).mem = s.mem.write a.toNat v := by
  unfold State.memWrite; split <;> rfl

@[simp] theorem State.memWrite_accA (s : State) (a v : Byte) :
    (s.memWrite a v).accA = s.accA := by
  unfold State.memWrite; split <;> rfl

@[simp] theorem State.memWrite_accB (s : State) (a v : Byte) :
    (s.memWrite a v).accB = s.accB := by
  unfold State.memWrite; split <;> rfl

@[simp] theorem State.memWrite_addrReg (s : State) (a v : Byte) :
    (s.memWrite a v).addrReg = s.addrReg := by
  unfold State.memWrite; split <;> rfl

@[simp] theorem State.memWrite_pc (s : State) (a v : Byte) :
    (s.memWrite a v).pc = s.pc := by
  unfold State.memWrite; split <;> rfl

@[simp] theorem State.memWrite_microState (s : State) (a v : Byte) :
    (s.memWrite a v).microState = s.microState := by
  unfold State.memWrite; split <;> rfl

@[simp] theorem State.memWrite_errorFlag (s : State) (a v : Byte) :
    (s.memWrite a v).errorFlag = s.errorFlag := by
  unfold State.memWrite; split <;> rfl

@[simp] theorem State.memWrite_instructionCount (s : State) (a v : Byte) :
    (s.memWrite a v).instructionCount = s.instructionCount := by
  unfold State.memWrite; split <;> rfl

@[simp] theorem State.memWrite_clockCount (s : State) (a v : Byte) :
    (s.memWrite a v).clockCount = s.clockCount := by
  unfold State.memWrite; split <;> rfl

@[simp] theorem State.memWrite_out (s : State) (a v : Byte) :
    (s.memWrite a v).out = if a = Config.outAddr then s.out ++ [v] else s.out := by
  unfold State.memWrite; split <;> rfl

@[simp] theorem State.memWrite_calls (s : State) (a v : Byte) :
    (s.memWrite a v).calls = s.calls := by
  unfold State.memWrite; split <;> rfl

@[simp] theorem State.memWrite_replies (s : State) (a v : Byte) :
    (s.memWrite a v).replies = s.replies := by
  unfold State.memWrite; split <;> rfl

@[simp] theorem State.memWrite_stepping (s : State) (a v : Byte) :
    (s.memWrite a v).stepping = s.stepping := by
  unfold State.memWrite; split <;> rfl

/-- `MemWrite` as one record update (20_memory R32). -/
theorem State.memWrite_eq (s : State) (a v : Byte) :
    s.memWrite a v =
      { s with mem := s.mem.write a.toNat v, out := if a = Config.outAddr then s.out ++ [v] else s.out } := by
  unfold State.memWrite; split <;> rfl

/-! `raiseInvariantViolation` -/

@[simp] theorem State.raiseInvariantViolation_mem (s : State) :
    (s.raiseInvariantViolation).mem = s.mem := rfl

@[simp] theorem State.raiseInvariantViolation_accA (s : State) :
    (s.raiseInvariantViolation).accA = s.accA := rfl

@[simp] theorem State.raiseInvariantViolation_accB (s : State) :
    (s.raiseInvariantViolation).accB = s.accB := rfl

@[simp] theorem State.raiseInvariantViolation_addrReg (s : State) :
    (s.raiseInvariantViolation).addrReg = s.addrReg := rfl

@[simp] theorem State.raiseInvariantViolation_pc (s : State) :
    (s.raiseInvariantViolation).pc = s.pc := rfl

@[simp] theorem State.raiseInvariantViolation_microState (s : State) :
    (s.raiseInvariantViolation).microState = s.microState := rfl

@[simp] theorem State.raiseInvariantViolation_errorFlag (s : State) :
    (s.raiseInvariantViolation).errorFlag = true := rfl

@[simp] theorem State.raiseInvariantViolation_instructionCount (s : State) :
    (s.raiseInvariantViolation).instructionCount = s.instructionCount := rfl

@[simp] theorem State.raiseInvariantViolation_clockCount (s : State) :
    (s.raiseInvariantViolation).clockCount = s.clockCount := rfl

@[simp] theorem State.raiseInvariantViolation_out (s : State) :
    (s.raiseInvariantViolation).out = s.out := rfl

@[simp] theorem State.raiseInvariantViolation_calls (s : State) :
    (s.raiseInvariantViolation).calls = s.calls := rfl

@[simp] theorem State.raiseInvariantViolation_replies (s : State) :
    (s.raiseInvariantViolation).replies = s.replies := rfl

@[simp] theorem State.raiseInvariantViolation_stepping (s : State) :
    (s.raiseInvariantViolation).stepping = s.stepping := rfl

/-! `hostReset` -/

@[simp] theorem State.hostReset_mem (s : State) :
    (s.hostReset).mem = [] := rfl

@[simp] theorem State.hostReset_accA (s : State) :
    (s.hostReset).accA = 0 := rfl

@[simp] theorem State.hostReset_accB (s : State) :
    (s.hostReset).accB = 0 := rfl

@[simp] theorem State.hostReset_addrReg (s : State) :
    (s.hostReset).addrReg = 0 := rfl

@[simp] theorem State.hostReset_pc (s : State) :
    (s.hostReset).pc = 0 := rfl

@[simp] theorem State.hostReset_microState (s : State) :
    (s.hostReset).microState = 0 := rfl

@[simp] theorem State.hostReset_errorFlag (s : State) :
    (s.hostReset).errorFlag = false := rfl

@[simp] theorem State.hostReset_instructionCount (s : State) :
    (s.hostReset).instructionCount = 0 := rfl

@[simp] theorem State.hostReset_clockCount (s : State) :
    (s.hostReset).clockCount = 0 := rfl

@[simp] theorem State.hostReset_out (s : State) :
    (s.hostReset).out = s.out := rfl

@[simp] theorem State.hostReset_calls (s : State) :
    (s.hostReset).calls = s.calls := rfl

@[simp] theorem State.hostReset_replies (s : State) :
    (s.hostReset).replies = s.replies := rfl

@[simp] theorem State.hostReset_stepping (s : State) :
    (s.hostReset).stepping = s.stepping := rfl

/-! `loadImage` -/

@[simp] theorem State.loadImage_mem (s : State) (bytes : List Byte) :
    (s.loadImage bytes).mem = s.mem.load 0 (bytes.take Config.memDepth) := rfl

@[simp] theorem State.loadImage_accA (s : State) (bytes : List Byte) :
    (s.loadImage bytes).accA = s.accA := rfl

@[simp] theorem State.loadImage_accB (s : State) (bytes : List Byte) :
    (s.loadImage bytes).accB = s.accB := rfl

@[simp] theorem State.loadImage_addrReg (s : State) (bytes : List Byte) :
    (s.loadImage bytes).addrReg = s.addrReg := rfl

@[simp] theorem State.loadImage_pc (s : State) (bytes : List Byte) :
    (s.loadImage bytes).pc = s.pc := rfl

@[simp] theorem State.loadImage_microState (s : State) (bytes : List Byte) :
    (s.loadImage bytes).microState = s.microState := rfl

@[simp] theorem State.loadImage_errorFlag (s : State) (bytes : List Byte) :
    (s.loadImage bytes).errorFlag = s.errorFlag := rfl

@[simp] theorem State.loadImage_instructionCount (s : State) (bytes : List Byte) :
    (s.loadImage bytes).instructionCount = s.instructionCount := rfl

@[simp] theorem State.loadImage_clockCount (s : State) (bytes : List Byte) :
    (s.loadImage bytes).clockCount = s.clockCount := rfl

@[simp] theorem State.loadImage_out (s : State) (bytes : List Byte) :
    (s.loadImage bytes).out = s.out := rfl

@[simp] theorem State.loadImage_calls (s : State) (bytes : List Byte) :
    (s.loadImage bytes).calls = s.calls := rfl

@[simp] theorem State.loadImage_replies (s : State) (bytes : List Byte) :
    (s.loadImage bytes).replies = s.replies := rfl

@[simp] theorem State.loadImage_stepping (s : State) (bytes : List Byte) :
    (s.loadImage bytes).stepping = s.stepping := rfl

/-! `answer` -/

@[simp] theorem State.answer_mem (s : State) (r : HostReply) :
    (s.answer r).mem = s.mem := rfl

@[simp] theorem State.answer_accA (s : State) (r : HostReply) :
    (s.answer r).accA = s.accA := rfl

@[simp] theorem State.answer_accB (s : State) (r : HostReply) :
    (s.answer r).accB = s.accB := rfl

@[simp] theorem State.answer_addrReg (s : State) (r : HostReply) :
    (s.answer r).addrReg = s.addrReg := rfl

@[simp] theorem State.answer_pc (s : State) (r : HostReply) :
    (s.answer r).pc = s.pc := rfl

@[simp] theorem State.answer_microState (s : State) (r : HostReply) :
    (s.answer r).microState = s.microState := rfl

@[simp] theorem State.answer_errorFlag (s : State) (r : HostReply) :
    (s.answer r).errorFlag = s.errorFlag := rfl

@[simp] theorem State.answer_instructionCount (s : State) (r : HostReply) :
    (s.answer r).instructionCount = s.instructionCount := rfl

@[simp] theorem State.answer_clockCount (s : State) (r : HostReply) :
    (s.answer r).clockCount = s.clockCount := rfl

@[simp] theorem State.answer_out (s : State) (r : HostReply) :
    (s.answer r).out = s.out := rfl

@[simp] theorem State.answer_calls (s : State) (r : HostReply) :
    (s.answer r).calls = s.calls := rfl

@[simp] theorem State.answer_replies (s : State) (r : HostReply) :
    (s.answer r).replies = s.replies ++ [r] := rfl

@[simp] theorem State.answer_stepping (s : State) (r : HostReply) :
    (s.answer r).stepping = s.stepping := rfl

end Sys2Proof.Machine
end

