-- ==== Sys2Proof/Laws/Exec.lean ====
section
/-! SUPPORT. What an execution can do, said once: a row's effect in plain arithmetic, and the two outcomes. -/

namespace Sys2Proof.Machine

/-- The state a row goes to where the fault flag is clear, in plain byte arithmetic. -/
def rowEffect (i : Instr) (s : State) : State :=
  match i with
  | .subleq a b c =>
    let r := s.memRead b - s.memRead a
    let target := if b = s.pc + 2 then r else c
    { s.memWrite b r with
      accA := s.memRead a
      accB := s.memRead b
      addrReg := target
      pc := if (s.memRead b).toNat ≤ (s.memRead a).toNat then target else s.pc + 3
      microState := 0
      instructionCount := s.instructionCount + 1
      clockCount := s.clockCount + 12 }
  | .p0AssertPcA => s.endPhase 1
  | .p1LatchAAddr => { s with addrReg := s.memRead s.pc }.endPhase 2
  | .p2AssertMarA => s.endPhase 3
  | .p3LatchAVal => { s with accA := s.memRead s.addrReg, pc := s.pc + 1 }.endPhase 4
  | .p4AssertPcB => s.endPhase 5
  | .p5LatchBAddr => { s with addrReg := s.memRead s.pc }.endPhase 6
  | .p6AssertMarB => s.endPhase 7
  | .p7LatchBVal => { s with accB := s.memRead s.addrReg, pc := s.pc + 1 }.endPhase 8
  | .p8SubStore => (s.memWrite s.addrReg (s.accB - s.accA)).endPhase 9
  | .p9AssertPcC => s.endPhase 10
  | .p10LatchC => { s with addrReg := s.memRead s.pc }.endPhase 11
  | .p11Branch =>
    { s with
      pc := if s.accB.toNat ≤ s.accA.toNat then s.addrReg else s.pc + 1
      instructionCount := s.instructionCount + 1 }.endPhase 0
  | .illegalMicrostate12 | .illegalMicrostate13 | .illegalMicrostate14 | .illegalMicrostate15 =>
    s.raiseInvariantViolation

theorem exec_eq (i : Instr) (s : State) : exec i s = s.unlessFaulted (rowEffect i s) := by
  cases i <;>
    simp [exec, rowEffect, execSubleq, execP0AssertPcA, execP1LatchAAddr, execP2AssertMarA, execP3LatchAVal,
      execP4AssertPcB, execP5LatchBAddr, execP6AssertMarB, execP7LatchBVal, execP8SubStore, execP9AssertPcC,
      execP10LatchC, execP11Branch, execIllegalMicrostate12, execIllegalMicrostate13, execIllegalMicrostate14,
      execIllegalMicrostate15, branchMux, State.branchTarget, State.indirect, Config.numPhases]

theorem unlessFaulted_of_clear {s s' : State} (h : s.errorFlag = false) : s.unlessFaulted s' = .next s' := by
  simp [State.unlessFaulted, h]

theorem unlessFaulted_of_set {s s' : State} (h : s.errorFlag = true) :
    s.unlessFaulted s' = .fault .steppedWhileFaulted := by
  simp [State.unlessFaulted, h]

/-- Everything `unlessFaulted` can answer. -/
theorem unlessFaulted_next_iff {s s' t : State} :
    s.unlessFaulted s' = .next t ↔ s.errorFlag = false ∧ t = s' := by
  cases h : s.errorFlag <;> simp [State.unlessFaulted, h, eq_comm]

/-- Everything an execution that answers a next state does. -/
theorem exec_next_iff {i : Instr} {s t : State} : exec i s = .next t ↔ s.errorFlag = false ∧ t = rowEffect i s := by
  rw [exec_eq, unlessFaulted_next_iff]

theorem exec_not_refused (i : Instr) (s : State) (r : Refusal) : exec i s ≠ .refused r := by
  rw [exec_eq]; cases h : s.errorFlag <;> simp [State.unlessFaulted, h]

theorem clockStep_eq (s : State) : clockStep s = s.unlessFaulted (rowEffect (decodeMicroState s.microState) s) :=
  exec_eq _ s

theorem clockStep_of_clear {s : State} (h : s.errorFlag = false) :
    clockStep s = .next (rowEffect (decodeMicroState s.microState) s) := by
  rw [clockStep_eq, unlessFaulted_of_clear h]

theorem clockStep_of_set {s : State} (h : s.errorFlag = true) : clockStep s = .fault .steppedWhileFaulted := by
  rw [clockStep_eq, unlessFaulted_of_set h]

/-- The twelve legal and the four illegal values of `microState`. -/
theorem microState_cases (k : MicroState) :
    k = 0 ∨ k = 1 ∨ k = 2 ∨ k = 3 ∨ k = 4 ∨ k = 5 ∨ k = 6 ∨ k = 7 ∨ k = 8 ∨ k = 9 ∨ k = 10 ∨ k = 11 ∨ k = 12 ∨
      k = 13 ∨ k = 14 ∨ k = 15 := by
  revert k; decide

/-- The four illegal values select the rows that take the exception (40_clock_cycle_state_machine R72). -/
theorem rowEffect_of_illegal {s : State} {k : MicroState} (h : 12 ≤ k.toNat) :
    rowEffect (decodeMicroState k) s = s.raiseInvariantViolation := by
  rcases microState_cases k with rfl | rfl | rfl | rfl | rfl | rfl | rfl | rfl | rfl | rfl | rfl | rfl | rfl | rfl | rfl | rfl
  all_goals first | rfl | exact absurd h (by decide)

end Sys2Proof.Machine
end

