-- ==== Sys2Proof/Laws/Memory.lean ====
section
/-! SUPPORT. Memory laws: reads after writes, and the canonical form, which every operation keeps and which makes equal
memories equal data. -/

namespace Sys2Proof.Machine

theorem Memory.read_nil (a : Nat) : Memory.read [] a = Memory.unlisted := rfl

theorem Memory.read_erase_same (m : Memory) (a : Nat) : (m.erase a).read a = Memory.unlisted := by
  induction m with
  | nil => rfl
  | cons e m ih => simp only [Memory.erase]; split <;> simp_all [Memory.read]

theorem Memory.read_erase_of_ne (m : Memory) {a b : Nat} (h : b ≠ a) : (m.erase a).read b = m.read b := by
  induction m with
  | nil => rfl
  | cons e m ih =>
    simp only [Memory.erase]; split
    · have : e.1 ≠ b := by omega
      simp_all [Memory.read]
    · simp [Memory.read, ih]

theorem Memory.read_insert_of_ne (m : Memory) {a b : Nat} (v : Byte) (h : b ≠ a) :
    (m.insert a v).read b = m.read b := by
  induction m with
  | nil => simp [Memory.insert, Memory.read, h.symm]
  | cons e m ih =>
    simp only [Memory.insert]; split
    · simp [Memory.read, h.symm]
    · simp [Memory.read, ih]

/-- The address is listed nowhere. -/
def Memory.Unlisted (m : Memory) (a : Nat) : Prop := ∀ e ∈ m, e.1 ≠ a

theorem Memory.erase_unlisted (m : Memory) (a : Nat) : (m.erase a).Unlisted a := by
  induction m with
  | nil => simp [Memory.Unlisted, Memory.erase]
  | cons e m ih =>
    simp only [Memory.erase]; split
    · exact ih
    · intro x hx
      rcases List.mem_cons.1 hx with rfl | hx
      · assumption
      · exact ih x hx

theorem Memory.read_insert_same (m : Memory) (a : Nat) (v : Byte) (h : m.Unlisted a) : (m.insert a v).read a = v := by
  induction m with
  | nil => simp [Memory.insert, Memory.read]
  | cons e m ih =>
    simp only [Memory.insert]; split
    · simp [Memory.read]
    · have he : e.1 ≠ a := h e (by simp)
      simp [Memory.read, he, ih fun x hx => h x (by simp [hx])]

/-- A read after a write: the value written there, every other cell as before. No premise on the list. -/
theorem Memory.read_write (m : Memory) (a b : Nat) (v : Byte) :
    (m.write a v).read b = if b = a then v else m.read b := by
  unfold Memory.write
  by_cases hb : b = a
  · subst hb
    split
    · simp [Memory.read_erase_same, *]
    · simp [Memory.read_insert_same _ _ _ (Memory.erase_unlisted m b)]
  · split <;> simp [hb, Memory.read_erase_of_ne, Memory.read_insert_of_ne]

/-- Reads of consecutive cells after a plain copy. -/
theorem Memory.read_load (m : Memory) (a b : Nat) (vs : List Byte) :
    (m.load a vs).read b = if a ≤ b ∧ b < a + vs.length then vs.getD (b - a) 0 else m.read b := by
  induction vs generalizing m a with
  | nil => simp [Memory.load]
  | cons v vs ih =>
    rw [Memory.load, ih, Memory.read_write]
    by_cases h : b = a
    · subst h; simp
    · by_cases h2 : a ≤ b ∧ b < a + (v :: vs).length
      · obtain ⟨k, rfl⟩ : ∃ k, b = a + 1 + k := ⟨b - a - 1, by omega⟩
        have e1 : a + 1 + k - a = k + 1 := by omega
        have e2 : a + 1 + k - (a + 1) = k := by omega
        simp only [List.length_cons] at h2
        rw [if_pos (by omega), if_pos (by simp only [List.length_cons]; omega), e1, e2]
        simp
      · simp only [List.length_cons] at h2 ⊢
        rw [if_neg (by omega), if_neg h, if_neg (by omega)]

theorem Memory.wfFrom_cons {lo k : Nat} {v : Byte} {m : Memory} :
    Memory.wfFrom lo ((k, v) :: m) = true ↔
      lo ≤ k ∧ k < Config.memDepth ∧ v ≠ Memory.unlisted ∧ Memory.wfFrom (k + 1) m = true := by
  simp [Memory.wfFrom, and_assoc]

theorem Memory.wfFrom_mono {lo lo' : Nat} (h : lo' ≤ lo) {m : Memory} (hm : m.wfFrom lo = true) :
    m.wfFrom lo' = true := by
  cases m with
  | nil => rfl
  | cons e m =>
    obtain ⟨k, v⟩ := e
    rw [Memory.wfFrom_cons] at hm ⊢
    exact ⟨by omega, hm.2⟩

theorem Memory.wfFrom_erase {lo : Nat} {m : Memory} (a : Nat) (hm : m.wfFrom lo = true) :
    (m.erase a).wfFrom lo = true := by
  induction m generalizing lo with
  | nil => rfl
  | cons e m ih =>
    obtain ⟨k, v⟩ := e
    rw [Memory.wfFrom_cons] at hm
    simp only [Memory.erase]; split
    · exact Memory.wfFrom_mono (by omega) (ih hm.2.2.2)
    · exact Memory.wfFrom_cons.2 ⟨hm.1, hm.2.1, hm.2.2.1, ih hm.2.2.2⟩

theorem Memory.wfFrom_insert {lo a : Nat} {m : Memory} {v : Byte} (hm : m.wfFrom lo = true) (hl : lo ≤ a)
    (ha : a < Config.memDepth) (hv : v ≠ Memory.unlisted) (hu : m.Unlisted a) : (m.insert a v).wfFrom lo = true := by
  induction m generalizing lo with
  | nil => exact Memory.wfFrom_cons.2 ⟨hl, ha, hv, rfl⟩
  | cons e m ih =>
    obtain ⟨k, x⟩ := e
    rw [Memory.wfFrom_cons] at hm
    have hk : k ≠ a := hu (k, x) (by simp)
    simp only [Memory.insert]; split
    · exact Memory.wfFrom_cons.2 ⟨hl, ha, hv, Memory.wfFrom_cons.2 ⟨by omega, hm.2⟩⟩
    · exact Memory.wfFrom_cons.2
        ⟨hm.1, hm.2.1, hm.2.2.1, ih hm.2.2.2 (by omega) fun y hy => hu y (by simp [hy])⟩

/-- Writing a cell of the address space keeps the canonical form. -/
theorem Memory.wf_write {m : Memory} {a : Nat} (v : Byte) (hm : m.wf = true) (ha : a < Config.memDepth) :
    (m.write a v).wf = true := by
  unfold Memory.write; split
  · exact Memory.wfFrom_erase a hm
  · exact Memory.wfFrom_insert (Memory.wfFrom_erase a hm) (by omega) ha (by assumption) (Memory.erase_unlisted m a)

/-- A plain copy inside the address space keeps the canonical form. -/
theorem Memory.wf_load {m : Memory} {a : Nat} {vs : List Byte} (hm : m.wf = true)
    (h : a + vs.length ≤ Config.memDepth) : (m.load a vs).wf = true := by
  induction vs generalizing m a with
  | nil => exact hm
  | cons v vs ih =>
    simp only [List.length_cons] at h
    exact ih (Memory.wf_write v hm (by omega)) (by omega)

/-- An address outside the address space reads as an unlisted cell in a canonical memory. -/
theorem Memory.read_of_lt {lo a : Nat} {m : Memory} (hm : m.wfFrom lo = true) (h : a < lo) :
    m.read a = Memory.unlisted := by
  induction m generalizing lo with
  | nil => rfl
  | cons e m ih =>
    obtain ⟨k, v⟩ := e
    rw [Memory.wfFrom_cons] at hm
    have hk : k ≠ a := by omega
    simp only [Memory.read, hk, if_false]
    exact ih hm.2.2.2 (by omega)

/-- Canonical memories that read alike are the same data. -/
theorem Memory.eq_of_read_eq {lo : Nat} {m m' : Memory} (hm : m.wfFrom lo = true) (hm' : m'.wfFrom lo = true)
    (h : ∀ a, m.read a = m'.read a) : m = m' := by
  induction m generalizing lo m' with
  | nil =>
    cases m' with
    | nil => rfl
    | cons e m' =>
      obtain ⟨k, v⟩ := e
      have := h k
      rw [Memory.wfFrom_cons] at hm'
      simp only [Memory.read, if_true] at this
      exact absurd this.symm hm'.2.2.1
  | cons e m ih =>
    obtain ⟨k, v⟩ := e
    cases m' with
    | nil =>
      have := h k
      rw [Memory.wfFrom_cons] at hm
      simp only [Memory.read, if_true] at this
      exact absurd this hm.2.2.1
    | cons e' m' =>
      obtain ⟨k', v'⟩ := e'
      rw [Memory.wfFrom_cons] at hm hm'
      have hk : k = k' := by
        by_contra hne
        rcases Nat.lt_or_gt_of_ne hne with hlt | hlt
        · have := h k
          rw [Memory.read_of_lt (lo := k') (m := (k', v') :: m')
            (Memory.wfFrom_cons.2 ⟨le_refl _, hm'.2⟩) hlt] at this
          simp only [Memory.read, if_true] at this
          exact hm.2.2.1 this
        · have := h k'
          rw [Memory.read_of_lt (lo := k) (m := (k, v) :: m)
            (Memory.wfFrom_cons.2 ⟨le_refl _, hm.2⟩) hlt] at this
          simp only [Memory.read, if_true] at this
          exact hm'.2.2.1 this.symm
      subst hk
      have hv : v = v' := by simpa [Memory.read] using h k
      subst hv
      rw [ih hm.2.2.2 hm'.2.2.2 fun a => ?_]
      by_cases ha : a < k + 1
      · rw [Memory.read_of_lt hm.2.2.2 ha, Memory.read_of_lt hm'.2.2.2 ha]
      · have := h a
        have hka : k ≠ a := by omega
        simpa [Memory.read, hka] using this

/-- `MemRead` after `MemWrite` (20_memory R31 to R33). -/
theorem State.memRead_memWrite (s : State) (a b v : Byte) :
    (s.memWrite a v).memRead b = if b = a then v else s.memRead b := by
  simp [State.memRead, Memory.read_write, BitVec.toNat_inj]

/-- `MemWrite` keeps the canonical form. -/
theorem State.wf_memWrite {s : State} (a v : Byte) (h : s.mem.wf = true) : (s.memWrite a v).mem.wf = true := by
  rw [State.memWrite_mem]; exact Memory.wf_write v h a.isLt

theorem reset_mem_wf : State.reset.mem.wf = true := rfl

end Sys2Proof.Machine
end

