-- ==== Sys2Proof/Laws/Host.lean ====
section
/-! SUPPORT. What one action of the machine can do, by the next pending call and the driver's stepping. -/

namespace Sys2Proof.Machine

theorem step_of_call {s : State} {c : HostCall} {rest : List HostCall} (h : s.calls = c :: rest) :
    step s = serve c { s with calls := rest } := by
  simp [step, advance, h]

theorem step_clockCycle {s : State} (h : s.calls = []) (hs : s.stepping = .clockCycle) : step s = clockStep s := by
  simp [step, advance, h, hs]

theorem step_instruction {s : State} (h : s.calls = []) (hs : s.stepping = .instruction) :
    step s = stepInstruction s := by
  simp [step, advance, h, hs]

theorem hostAddrOk_iff (x : Int) : hostAddrOk x = true ↔ 0 ≤ x ∧ x < 256 := by
  rw [hostAddrOk, Bool.and_eq_true, decide_eq_true_iff, decide_eq_true_iff]; rfl

theorem runToPhaseZero_not_refused (n : Nat) (s : State) (r : Refusal) : runToPhaseZero n s ≠ .refused r := by
  induction n generalizing s with
  | zero => simp [runToPhaseZero]
  | succ n ih =>
    simp only [runToPhaseZero]
    split
    · split
      · simp
      · exact ih _
    · simp
    · rename_i h; exact absurd h (exec_not_refused _ _ _)

/-- What the report of a step operation makes of the step's outcome. -/
theorem reportStep_next (s s' : State) :
    reportStep s (.next s') = .next (s'.answer (if s'.errorFlag then .fault .illegalMicroState else .stepped)) := rfl

theorem reportStep_fault (s : State) (r : Fault) : reportStep s (.fault r) = .next (s.answer (.fault r)) := rfl

/-- Everything a step operation of the host can leave: the step's next state, or the state as it was, with a report. -/
theorem reportStep_cases {s t : State} {o : Host.Outcome State Fault Refusal} (h : reportStep s o = .next t) :
    (∃ u r, o = .next u ∧ t = u.answer r) ∨ ∃ r, t = s.answer r := by
  cases o with
  | next u => cases h; exact .inl ⟨u, _, rfl, rfl⟩
  | fault r => cases h; exact .inr ⟨_, rfl⟩
  | refused r => cases h

end Sys2Proof.Machine
end

