-- ==== Sys2Proof/Laws/PerInstr.lean ====
section
/-! SUPPORT. Statements about every instruction as syntax. -/

namespace Sys2Proof.Laws.CellsOk

/-- The encoding of an instruction is well formed for its format. -/
def Statement (i : Instr) : Prop := i.format.cellsOk (encode i) = true

theorem subleq (a b c : Byte) : Statement (.subleq a b c) := rfl
theorem p0AssertPcA : Statement .p0AssertPcA := rfl
theorem p1LatchAAddr : Statement .p1LatchAAddr := rfl
theorem p2AssertMarA : Statement .p2AssertMarA := rfl
theorem p3LatchAVal : Statement .p3LatchAVal := rfl
theorem p4AssertPcB : Statement .p4AssertPcB := rfl
theorem p5LatchBAddr : Statement .p5LatchBAddr := rfl
theorem p6AssertMarB : Statement .p6AssertMarB := rfl
theorem p7LatchBVal : Statement .p7LatchBVal := rfl
theorem p8SubStore : Statement .p8SubStore := rfl
theorem p9AssertPcC : Statement .p9AssertPcC := rfl
theorem p10LatchC : Statement .p10LatchC := rfl
theorem p11Branch : Statement .p11Branch := rfl
theorem illegalMicrostate12 : Statement .illegalMicrostate12 := rfl
theorem illegalMicrostate13 : Statement .illegalMicrostate13 := rfl
theorem illegalMicrostate14 : Statement .illegalMicrostate14 := rfl
theorem illegalMicrostate15 : Statement .illegalMicrostate15 := rfl

end Sys2Proof.Laws.CellsOk
end

