-- ==== Sys2Proof/Laws/Safety.lean ====
section
/-! SUPPORT. The invariant in plain terms, and how runs unfold. -/

namespace Sys2Proof.Machine

theorem inv_iff (s : State) :
    s.Inv = true ↔
      s.mem.wf = true ∧ s.errorFlag = false ∧ s.microState.toNat < 12 ∧
        s.clockCount = 12 * s.instructionCount + s.microState.toNat := by
  simp only [State.Inv, State.Live, Bool.and_eq_true, decide_eq_true_iff, Bool.not_eq_true', and_assoc]; rfl

@[simp] theorem inv_answer (s : State) (r : HostReply) : (s.answer r).Inv = s.Inv := rfl

/-- A faulted state is never the end of a run (40_clock_cycle_state_machine R73, 60_exceptions R116). -/
theorem not_endOfRun_of_fault {s : State} {h z : Byte} (hf : s.errorFlag = true) : ¬ s.EndOfRun h z :=
  fun e => Bool.false_ne_true (e.1.symm.trans hf)

/-- A run that starts at an end is over at once. -/
theorem runEndsAt_zero {s : State} {h z : Byte} (e : s.EndOfRun h z) : RunEndsAt s h z 0 s :=
  ⟨rfl, e, fun _ _ hm => absurd hm (Nat.not_lt_zero _)⟩

theorem clockSteps_succ {s : State} (n : Nat) (h : s.errorFlag = false) :
    clockSteps (n + 1) s = clockSteps n (rowEffect (decodeMicroState s.microState) s) := by
  simp only [clockSteps]; rw [clockStep_of_clear h]

theorem run_succ {s s' : State} (n : Nat) (h : step s = .next s') :
    Host.Core.run core (n + 1) s = Host.Core.run core n s' := by
  simp only [Host.Core.run]; rw [show core.step s = step s from rfl, h]

end Sys2Proof.Machine
end

