-- ==== Sys2Proof/Tests/Slice0.lean ====
section
/-! SUPPORT. Tests: expected results are those of spec/95_test_vectors.md and the encoding tables of spec/30_encoding.md.
Then, for every statement that has hypotheses, concrete values that meet them together. -/

namespace Sys2Proof.Tests

open Sys2Proof.Machine

/-- The next state, where there is one. -/
def nextOf (o : Host.Outcome State Fault Refusal) : Option State :=
  match o with
  | .next s => some s
  | .fault _ => none
  | .refused _ => none

/-- A memory from its cells. -/
def mem (cells : List (Nat × Byte)) : Memory := cells.foldl (fun m c => m.write c.1 c.2) []

/-- A state at phase 0 with given cells and `pc`, all else as after reset. -/
def at0 (cells : List (Nat × Byte)) (pc : Byte) : State := { State.reset with mem := mem cells, pc := pc }

/-- A state at a phase, the registers set apart. -/
def atPhase (k : MicroState) (addrReg accB accA : Byte) : State :=
  { State.reset with mem := mem [(3, 7), (9, 8)], pc := 9, microState := k, addrReg := addrReg, accB := accB, accA := accA }

/-- The block's state after a host call. -/
def called (c : HostCall) (s : State) : Option State := nextOf (step { s with calls := [c] })

/-! WellFormed: an ill-formed encoding for each check. -/

theorem test_wellFormed_two_cells : Format.cellsOk .abc [3, 3] = false := by decide
theorem test_wellFormed_four_cells : Format.cellsOk .abc [3, 3, 6, 253] = false := by decide
theorem test_wellFormed_no_value : Format.cellsOk .microState4 [] = false := by decide
theorem test_wellFormed_sixteen : Format.cellsOk .microState4 [16] = false := by decide
theorem test_wellFormed_subleq : Format.cellsOk .abc [255, 0, 255] = true := by decide

/-! Decoding, each word from 30_encoding R51 and the binary column of R55. -/

theorem test_decode_subleq : decode .abc [9, 2, 20] = .instr (.subleq 9 2 20) [] := by decide
theorem test_decode_subleq_table : decodeTableWord 24 0x090214 = some (.subleq 9 2 20) := by decide
theorem test_decode_p0 : decode .microState4 [0b0000] = .instr .p0AssertPcA [] := by decide
theorem test_decode_p1 : decode .microState4 [0b0001] = .instr .p1LatchAAddr [] := by decide
theorem test_decode_p2 : decode .microState4 [0b0010] = .instr .p2AssertMarA [] := by decide
theorem test_decode_p3 : decode .microState4 [0b0011] = .instr .p3LatchAVal [] := by decide
theorem test_decode_p4 : decode .microState4 [0b0100] = .instr .p4AssertPcB [] := by decide
theorem test_decode_p5 : decode .microState4 [0b0101] = .instr .p5LatchBAddr [] := by decide
theorem test_decode_p6 : decode .microState4 [0b0110] = .instr .p6AssertMarB [] := by decide
theorem test_decode_p7 : decode .microState4 [0b0111] = .instr .p7LatchBVal [] := by decide
theorem test_decode_p8 : decode .microState4 [0b1000] = .instr .p8SubStore [] := by decide
theorem test_decode_p9 : decode .microState4 [0b1001] = .instr .p9AssertPcC [] := by decide
theorem test_decode_p10 : decode .microState4 [0b1010] = .instr .p10LatchC [] := by decide
theorem test_decode_p11 : decode .microState4 [0b1011] = .instr .p11Branch [] := by decide
theorem test_decode_12 : decode .microState4 [0b1100] = .instr .illegalMicrostate12 [] := by decide
theorem test_decode_13 : decode .microState4 [0b1101] = .instr .illegalMicrostate13 [] := by decide
theorem test_decode_14 : decode .microState4 [0b1110] = .instr .illegalMicrostate14 [] := by decide
theorem test_decode_15 : decode .microState4 [0b1111] = .instr .illegalMicrostate15 [] := by decide
theorem test_decode_too_big : decode .microState4 [0b10000] = .rejected .notAMicroState := by decide

/-! 95_test_vectors section 2: the rows where the rejected readings differ, and the equal row. -/

theorem test_branch_condition_rows :
    [(0, 0), (1, 0), (0, 1), (255, 0), (0, 255), (200, 10), (10, 200), (128, 0), (129, 1)].map
        (fun p : Byte × Byte => (subtract p.1 p.2, taken p.1 p.2)) =
      [(0, true), (1, false), (255, true), (255, false), (1, true), (190, false), (66, true), (128, false),
        (128, false)] := by decide

/-! E1, row by row: each phase from the row before it. -/

/-- The rows of E1's table: `addrReg`, `accA`, `accB`, `pc`, phase, `M[3]`. -/
def row (s : State) : List Nat :=
  [s.addrReg.toNat, s.accA.toNat, s.accB.toNat, s.pc.toNat, s.microState.toNat, (s.memRead 3).toNat,
    s.instructionCount, s.clockCount]

/-- A state of E1's table. -/
def e1 (addrReg accA accB pc : Byte) (k : MicroState) (m3 : Byte) : State :=
  { State.reset with
    mem := mem [(0, 3), (1, 3), (2, 6), (3, m3)], addrReg := addrReg, accA := accA, accB := accB, pc := pc,
    microState := k, clockCount := k.toNat }

theorem test_p0 : (nextOf (exec .p0AssertPcA (e1 0 0 0 0 0 253))).map row = some [0, 0, 0, 0, 1, 253, 0, 1] := by decide
theorem test_p1 : (nextOf (exec .p1LatchAAddr (e1 0 0 0 0 1 253))).map row = some [3, 0, 0, 0, 2, 253, 0, 2] := by decide
theorem test_p2 : (nextOf (exec .p2AssertMarA (e1 3 0 0 0 2 253))).map row = some [3, 0, 0, 0, 3, 253, 0, 3] := by decide
theorem test_p3 : (nextOf (exec .p3LatchAVal (e1 3 0 0 0 3 253))).map row = some [3, 253, 0, 1, 4, 253, 0, 4] := by decide
theorem test_p4 : (nextOf (exec .p4AssertPcB (e1 3 253 0 1 4 253))).map row = some [3, 253, 0, 1, 5, 253, 0, 5] := by decide
theorem test_p5 : (nextOf (exec .p5LatchBAddr (e1 3 253 0 1 5 253))).map row = some [3, 253, 0, 1, 6, 253, 0, 6] := by decide
theorem test_p6 : (nextOf (exec .p6AssertMarB (e1 3 253 0 1 6 253))).map row = some [3, 253, 0, 1, 7, 253, 0, 7] := by decide
theorem test_p7 : (nextOf (exec .p7LatchBVal (e1 3 253 0 1 7 253))).map row = some [3, 253, 253, 2, 8, 253, 0, 8] := by decide
theorem test_p8 : (nextOf (exec .p8SubStore (e1 3 253 253 2 8 253))).map row = some [3, 253, 253, 2, 9, 0, 0, 9] := by decide
theorem test_p9 : (nextOf (exec .p9AssertPcC (e1 3 253 253 2 9 0))).map row = some [3, 253, 253, 2, 10, 0, 0, 10] := by decide
theorem test_p10 : (nextOf (exec .p10LatchC (e1 3 253 253 2 10 0))).map row = some [6, 253, 253, 2, 11, 0, 0, 11] := by decide
theorem test_p11 : (nextOf (exec .p11Branch (e1 6 253 253 2 11 0))).map row = some [6, 253, 253, 6, 0, 0, 1, 12] := by decide

/-- R68's example: 'A' from a zero port. -/
theorem test_p8_emits :
    (nextOf (exec .p8SubStore (atPhase 8 255 0 191))).map (fun s => (s.memRead 255, s.out)) = some (65, [65]) := by decide

/-- R71: 200 against 10 is not taken, and `pc` 255 becomes 0. -/
theorem test_p11_not_taken_wraps :
    (nextOf (exec .p11Branch { atPhase 11 77 200 10 with pc := 255 })).map (fun s => s.pc) = some 0 := by decide

/-- V10: the store into the own C cell moves the target. -/
theorem test_subleq_own_c_cell :
    (nextOf (exec (.subleq 9 2 20) (at0 [(0, 9), (1, 2), (2, 20), (9, 30)] 0))).map
      (fun s => (s.pc, s.memRead 2, s.addrReg, s.accA, s.accB)) = some (246, 246, 246, 30, 20) := by decide

/-- V6: storing an unchanged value through the port still emits. -/
theorem test_subleq_port_emits_unchanged :
    (nextOf (exec (.subleq 10 255 40) (at0 [(0, 10), (1, 255), (2, 40), (255, 33)] 0))).map
      (fun s => (s.pc, s.memRead 255, s.out)) = some (3, 33, [33]) := by decide

/-- V1: the cells wrap 254, 255, 0, fetched by the stepper; cell 255 is read as a B field without an emission. -/
theorem test_stepper_wrapped_cells :
    (nextOf (step { at0 [(254, 10), (255, 11), (0, 77), (10, 1), (11, 5)] 254 with stepping := .instruction })).map
      (fun s => (s.pc, s.memRead 11, s.addrReg, s.out, s.clockCount)) = some (1, 4, 77, [], 12) := by decide

/-- S1: the stepper finishes E1's instruction from phase 5. -/
theorem test_stepper_from_phase_five :
    (called .stepInstruction (e1 3 253 0 1 5 253)).map (fun s => (row s, s.replies)) =
      some ([6, 253, 253, 6, 0, 0, 1, 12], [.stepped]) := by decide

/-! Section 4: the fault and the host operations. -/

theorem test_illegal_12 : (nextOf (exec .illegalMicrostate12 (atPhase 12 3 5 5))).map
    (fun s => (s.errorFlag, s.microState, s.clockCount)) = some (true, 12, 0) := by decide
theorem test_illegal_13 : (nextOf (exec .illegalMicrostate13 (atPhase 13 3 5 5))).map
    (fun s => (s.errorFlag, s.microState, s.clockCount)) = some (true, 13, 0) := by decide
theorem test_illegal_14 : (nextOf (exec .illegalMicrostate14 (atPhase 14 3 5 5))).map
    (fun s => (s.errorFlag, s.microState, s.clockCount)) = some (true, 14, 0) := by decide
theorem test_illegal_15 : (nextOf (exec .illegalMicrostate15 (atPhase 15 3 5 5))).map
    (fun s => (s.errorFlag, s.microState, s.clockCount)) = some (true, 15, 0) := by decide

/-- F1: the host's clock step on `microState` 13. -/
theorem test_host_step_reports_the_fault :
    (called .stepClockCycle (atPhase 13 0 0 0)).map (fun s => (s.errorFlag, s.microState, s.clockCount, s.replies)) =
      some (true, 13, 0, [.fault .illegalMicroState]) := by decide

/-- F3: the stepper on the faulted state changes nothing and does not loop. -/
theorem test_host_stepper_on_a_faulted_state :
    called .stepInstruction { atPhase 13 0 0 0 with errorFlag := true } =
      some { atPhase 13 0 0 0 with errorFlag := true, replies := [.fault .steppedWhileFaulted] } := by decide

/-- F4 and Z1: `reset()` clears the flag and leaves `out`. -/
theorem test_host_reset_leaves_out :
    called .reset { atPhase 13 3 5 5 with errorFlag := true, out := [65] } =
      some { State.reset with out := [65], replies := [.returned] } := by decide

/-- H1 and E2: writing 65 at 255 emits it and leaves it in the cell. -/
theorem test_host_write_at_the_port :
    (called (.writeMemory 255 65) State.reset).map (fun s => (s.memRead 255, s.out)) = some (65, [65]) := by decide

/-- H4: an address outside 0 to 255 is rejected. -/
theorem test_host_address_out_of_range :
    called (.readMemory 256) State.reset = some { State.reset with replies := [.addressOutOfRange] } ∧
      called (.writeMemory (-1) 5) State.reset = some { State.reset with replies := [.addressOutOfRange] } := by decide

/-- H5: a value is wrapped to 8 bits. -/
theorem test_host_write_wraps : (called (.writeMemory 7 321) State.reset).map (fun s => s.memRead 7) = some 65 := by decide

/-- L2: the image is loaded over whatever memory holds. -/
theorem test_load_image_touches_a_prefix :
    (called (.loadImage [1, 2]) (at0 [(200, 9)] 0)).map (fun s => (s.mem, s.out)) =
      some ([(0, 1), (1, 2), (200, 9)], []) := by decide

/-- P1: the program text assembles to the 15 bytes that section 5 gives. -/
theorem test_assemble_p1 :
    assemble
        [⟨none, some (.org 0)⟩,
          ⟨some "start", some (.subleq (.label "a") (.label "Z") (.label "n1"))⟩,
          ⟨some "n1", some (.subleq (.label "Z") (.label "b") (.label "n2"))⟩,
          ⟨some "n2", some (.subleq (.label "Z") (.label "Z") (.label "halt"))⟩,
          ⟨some "halt", some (.subleq (.label "Z") (.label "Z") (.label "halt"))⟩,
          ⟨some "a", some (.bytes (.number 7) [])⟩, ⟨some "b", some (.bytes (.number 5) [])⟩,
          ⟨some "Z", some (.bytes (.number 0) [])⟩] =
      some (Memory.load [] 0 [12, 14, 3, 14, 13, 6, 14, 14, 9, 14, 14, 9, 7, 5, 0]) := by decide

/-- An undefined label and a label defined twice are refused. -/
theorem test_assemble_refuses :
    assemble [⟨none, some (.bytes (.label "q") [])⟩] = none ∧
      assemble [⟨some "x", none⟩, ⟨some "x", none⟩] = none := by decide

/-! The memory keeps one canonical form: writing 0 removes the entry. -/

theorem test_memory_canonical : Memory.write (mem [(9, 4), (3, 7)]) 9 0 = [(3, 7)] := by decide

/-! WITNESSES: for each statement with hypotheses, values that meet them together; where a statement has several clauses,
one for each, at the edges of its range. -/

/-- A state with one pending call. -/
def calling (c : HostCall) (s : State) : State := { s with calls := [c] }

/-- Code at `pc`: A, B, C; and operands. -/
def code (a b c : Byte) : State := at0 [(9, a), (10, b), (11, c), (30, 5), (31, 5), (32, 8)] 9

theorem witness_TableWordFieldsAreCells : (0 < 2 ^ 24) ∧ (2 ^ 24 - 1 < 2 ^ 24) := by decide

theorem witness_StepRunsTheDecodedRow :
    decode .microState4 [(atPhase 11 3 5 5).microState.zeroExtend 8] = .instr .p11Branch [] ∧
      Instr.p11Branch.WellFormed = true ∧ (atPhase 11 3 5 5).calls = [] ∧ (atPhase 11 3 5 5).stepping = .clockCycle ∧
      (calling .stepClockCycle (atPhase 11 3 5 5)).calls = .stepClockCycle :: [] := by decide

theorem witness_StepRunsTheDecodedSubleq :
    (code 30 32 1).errorFlag = false ∧ (code 30 32 1).microState = 0 ∧
      decode .abc (code 30 32 1).instrCells = .instr (.subleq 30 32 1) [] ∧
      (Instr.subleq 30 32 1).WellFormed = true ∧ (code 30 32 1).calls = [] ∧
      { code 30 32 1 with stepping := .instruction }.stepping = .instruction ∧
      (calling .stepInstruction (code 30 32 1)).calls = .stepInstruction :: [] := by decide

theorem witness_PlacedInstructionRunsNext :
    2 ^ 24 - 1 < 2 ^ 24 ∧ 15 < 16 ∧ 12 ≤ 15 ∧
      (nextOf (step ({ State.reset with pc := 254 }.withFetchWord 24 0x0AFF4D))).map (fun s => s.instructionCount) = some 1 ∧
      (nextOf (step (State.reset.withFetchWord 8 15))).map (fun s => s.errorFlag) = some true ∧
      (nextOf (step (State.reset.withFetchWord 8 11))).map (fun s => s.errorFlag) = some false := by decide

theorem witness_AssertPhasesOnlyAdvance :
    (atPhase 0 3 5 5).errorFlag = false ∧ (atPhase 2 3 5 5).errorFlag = false ∧ (atPhase 4 3 5 5).errorFlag = false ∧
      (atPhase 6 3 5 5).errorFlag = false ∧ (atPhase 9 3 5 5).errorFlag = false := by decide

theorem witness_CellLatchPhases :
    (atPhase 1 3 5 5).errorFlag = false ∧ (atPhase 5 3 5 5).errorFlag = false ∧ (atPhase 10 3 5 5).errorFlag = false ∧
      (atPhase 1 3 5 5).mem.read 9 = 8 := by decide

theorem witness_PhaseThreeLoadsAccA :
    (atPhase 3 3 5 5).errorFlag = false ∧ { atPhase 3 3 5 5 with pc := 255 }.errorFlag = false := by decide

theorem witness_PhaseSevenLoadsAccB :
    (atPhase 7 3 5 5).errorFlag = false ∧ { atPhase 7 3 5 5 with pc := 255 }.errorFlag = false := by decide

theorem witness_PhaseEightSubtractsAndStores :
    (atPhase 8 255 5 6).errorFlag = false ∧ (atPhase 8 255 5 6).addrReg.toNat = 255 ∧
      (atPhase 8 254 5 6).errorFlag = false ∧ (atPhase 8 254 5 6).addrReg.toNat ≠ 255 := by decide

theorem witness_PhaseElevenDecidesAndRetires :
    (atPhase 11 3 5 5).errorFlag = false ∧ (atPhase 11 3 5 5).accB.toNat ≤ (atPhase 11 3 5 5).accA.toNat ∧
      (atPhase 11 3 6 5).errorFlag = false ∧ (atPhase 11 3 6 5).accA.toNat < (atPhase 11 3 6 5).accB.toNat := by decide

theorem witness_IllegalMicroStateTakesTheFault :
    (calling .stepClockCycle (atPhase 12 3 5 5)).errorFlag = false ∧
      12 ≤ (calling .stepClockCycle (atPhase 12 3 5 5)).microState.toNat ∧
      (calling .stepClockCycle (atPhase 12 3 5 5)).calls = .stepClockCycle :: [] ∧
      12 ≤ (calling .stepClockCycle (atPhase 15 3 5 5)).microState.toNat := by decide

theorem witness_FaultedStepChangesNothing :
    { atPhase 4 3 5 5 with errorFlag := true }.errorFlag = true ∧ { atPhase 4 3 5 5 with errorFlag := true }.calls = [] ∧
      (calling .stepClockCycle { atPhase 4 3 5 5 with errorFlag := true }).calls = .stepClockCycle :: [] := by decide

theorem witness_StepperReturnsTheFault :
    (calling .stepInstruction { atPhase 4 3 5 5 with errorFlag := true }).calls = .stepInstruction :: [] ∧
      (calling .stepInstruction { atPhase 4 3 5 5 with errorFlag := true }).errorFlag = true ∧
      (calling .stepInstruction (atPhase 12 3 5 5)).calls = .stepInstruction :: [] ∧
      (calling .stepInstruction (atPhase 12 3 5 5)).errorFlag = false ∧
      12 ≤ (calling .stepInstruction (atPhase 12 3 5 5)).microState.toNat ∧
      { atPhase 15 3 5 5 with stepping := .instruction }.calls = [] ∧
      { atPhase 15 3 5 5 with stepping := .instruction }.stepping = .instruction ∧
      { atPhase 15 3 5 5 with stepping := .instruction }.errorFlag = false ∧
      12 ≤ { atPhase 15 3 5 5 with stepping := .instruction }.microState.toNat ∧
      { atPhase 4 3 5 5 with errorFlag := true, stepping := .instruction }.errorFlag = true := by decide

theorem witness_FaultedStateIsNeverFinal :
    let s := { at0 [(9, 40), (10, 40), (11, 9)] 9 with errorFlag := true, calls := [.writeMemory 255 7, .stepInstruction] }
    s.errorFlag = true ∧ HostCall.reset ∉ s.calls ∧ 2 ≤ s.calls.length ∧ s.calls.length < 3 ∧ s.microState = 0 ∧
      s.pc = 9 ∧ s.memRead 40 = 0 := by decide

theorem witness_OnlyTheFaultSetsTheFlagOnlyResetClearsIt :
    ((atPhase 12 3 5 5).errorFlag = false ∧ (nextOf (step (atPhase 12 3 5 5))).map (fun s => s.errorFlag) = some true) ∧
      (called .reset { atPhase 4 3 5 5 with errorFlag := true }).map (fun s => s.errorFlag) = some false := by decide

theorem witness_StopsOnlyWhereFaulted :
    nextOf (step { atPhase 4 3 5 5 with errorFlag := true }) = none ∧ (nextOf (step (atPhase 4 3 5 5))).isSome = true := by
  decide

theorem witness_ItemsAreWrittenByTheirPhasesOnly :
    (atPhase 0 3 5 5).errorFlag = false ∧ (atPhase 0 3 5 5).microState.toNat < 12 ∧
      (atPhase 11 3 5 5).errorFlag = false ∧ (atPhase 11 3 5 5).microState.toNat < 12 ∧
      (atPhase 8 3 5 5).microState.toNat < 12 ∧ (atPhase 3 3 5 5).microState.toNat < 12 := by decide

theorem witness_OutputGrowsByTheStoredByte :
    (nextOf (step (atPhase 8 255 6 5))).map (fun s => s.out) = some [1] ∧
      (nextOf (step (atPhase 8 254 6 5))).map (fun s => s.out) = some [] := by decide

theorem witness_SubleqCompletesWithItsEffect :
    (code 30 32 1).errorFlag = false ∧ (255 : Byte).toNat = 255 ∧ (11 : Byte).toNat = ((code 30 11 1).pc.toNat + 2) % 256 ∧
      (32 : Byte).toNat ≠ ((code 30 32 1).pc.toNat + 2) % 256 := by decide

theorem witness_TwelveClocksHaveTheInstructionEffect :
    (code 30 255 1).errorFlag = false ∧ (code 30 255 1).microState = 0 ∧
      (at0 [(254, 10), (255, 11), (0, 77), (10, 1), (11, 5)] 254).errorFlag = false ∧
      (at0 [(254, 10), (255, 11), (0, 77), (10, 1), (11, 5)] 254).microState = 0 := by decide

theorem witness_TwelveClocksRefineSubleq :
    (code 30 11 1).errorFlag = false ∧ (code 30 11 1).microState = 0 ∧
      decode .abc (code 30 11 1).instrCells = .instr (.subleq 30 11 1) [] := by decide

theorem witness_StoreIntoOwnCCellMovesTheTarget :
    (code 30 11 20).errorFlag = false ∧ (code 30 11 20).microState = 0 ∧
      (code 30 11 20).memRead ((code 30 11 20).pc + 1) = (code 30 11 20).pc + 2 := by decide

theorem witness_StoreIntoOwnAOrBCellIsSeenLater :
    ((code 30 9 1).errorFlag = false ∧ (code 30 9 1).microState = 0 ∧
        (code 30 9 1).memRead ((code 30 9 1).pc + 1) = (code 30 9 1).pc) ∧
      (code 30 10 1).errorFlag = false ∧ (code 30 10 1).microState = 0 ∧
        (code 30 10 1).memRead ((code 30 10 1).pc + 1) = (code 30 10 1).pc + 1 := by decide

theorem witness_OutputCellAsOperand :
    (code 255 255 1).errorFlag = false ∧ (code 255 255 1).microState = 0 ∧
      (code 255 255 1).memRead ((code 255 255 1).pc) = 255 ∧ (code 255 255 1).memRead ((code 255 255 1).pc + 1) = 255 ∧
      (code 30 254 1).errorFlag = false ∧ (code 30 254 1).microState = 0 ∧
      (code 30 254 1).memRead ((code 30 254 1).pc + 1) ≠ 255 := by decide

theorem witness_SixAccessesInOrder : (code 30 11 1).errorFlag = false ∧ (code 30 11 1).microState = 0 := by decide

theorem witness_AssertPresentsTheLatchedAddress :
    ([0, 2, 4, 6, 9] : List MicroState).all (fun k =>
      !(atPhase k 3 5 5).errorFlag && decide ((atPhase k 3 5 5).microState.toNat ∈ [0, 2, 4, 6, 9])) = true := by decide

theorem witness_OutValidStrobesTheEmission :
    (nextOf (clockStep (atPhase 8 255 5 5))).isSome = true ∧ (atPhase 8 255 5 5).signals.outValid = true ∧
      (nextOf (clockStep (atPhase 8 254 5 5))).isSome = true ∧ (atPhase 8 254 5 5).signals.outValid = false ∧
      (atPhase 8 254 5 5).signals.we = true ∧ (atPhase 7 255 5 5).signals.we = false := by decide

theorem witness_CycleReturnsAfterTheRemainingPhases :
    (atPhase 0 3 5 5).errorFlag = false ∧ (atPhase 0 3 5 5).microState.toNat < 12 ∧
      11 < 12 - (atPhase 0 3 5 5).microState.toNat ∧ (atPhase 11 3 5 5).microState.toNat < 12 ∧
      0 < 12 - (atPhase 11 3 5 5).microState.toNat := by decide

theorem witness_StepperRunsTheRemainingPhases :
    (atPhase 0 3 5 5).errorFlag = false ∧ (atPhase 0 3 5 5).microState.toNat < 12 ∧
      (atPhase 11 3 5 5).errorFlag = false ∧ (atPhase 11 3 5 5).microState.toNat < 12 ∧
      { atPhase 11 3 5 5 with stepping := .instruction }.calls = [] ∧
      { atPhase 11 3 5 5 with stepping := .instruction }.stepping = .instruction ∧
      (calling .stepInstruction (atPhase 1 3 5 5)).calls = .stepInstruction :: [] := by decide

/-- Two machines at a phase-0 boundary that agree on memory and `pc` alone. -/
def twin : State := { code 30 255 1 with accA := 4, accB := 5, addrReg := 6, out := [1], clockCount := 7, stepping := .instruction }

theorem witness_EveryInstructionTakesTwelveClocks :
    twin.errorFlag = false ∧ twin.microState = 0 ∧ twin.calls = [] ∧ twin.stepping = .instruction := by decide

theorem witness_BehaviourDependsOnMemoryAndPcAlone :
    let s := { code 30 255 1 with stepping := .instruction }
    s.errorFlag = false ∧ twin.errorFlag = false ∧ s.microState = 0 ∧ twin.microState = 0 ∧ s.calls = [] ∧
      twin.calls = [] ∧ s.stepping = .instruction ∧ twin.stepping = .instruction ∧ s.mem = twin.mem ∧
      s.pc = twin.pc ∧ 0 < 1 := by decide

theorem witness_EveryActionKeepsTheInvariant :
    (code 30 255 1).Inv = true ∧ (nextOf (step (code 30 255 1))).isSome = true ∧
      (calling (.writeMemory 255 0) (code 30 255 1)).Inv = true ∧
      (nextOf (step (calling (.writeMemory 255 0) (code 30 255 1)))).isSome = true := by decide

theorem witness_InvariantStatesAlwaysStep : (code 30 255 1).Inv = true := by decide

theorem witness_ResetZeroesEverythingButTheOutput :
    (calling .reset { atPhase 13 3 5 5 with errorFlag := true }).calls = .reset :: [] := by decide

theorem witness_LoadImageCopiesAPrefix :
    (calling (.loadImage []) State.reset).calls = .loadImage [] :: [] ∧ ¬ 256 < (List.replicate 256 (1 : Byte)).length ∧
      256 < (List.replicate 257 (1 : Byte)).length ∧ 255 < min (List.replicate 257 (1 : Byte)).length 256 ∧
      min (List.replicate 257 (1 : Byte)).length 256 ≤ 256 := by
  simp only [List.length_replicate]; decide

theorem witness_HostWriteStoresAndEmits :
    ((calling (.writeMemory 0 (-1)) State.reset).calls = .writeMemory 0 (-1) :: [] ∧ (0 : Int) ≤ 0 ∧ (0 : Int) ≤ 255) ∧
      (calling (.writeMemory 255 321) State.reset).calls = .writeMemory 255 321 :: [] ∧ (0 : Int) ≤ 255 ∧
        (255 : Int) ≤ 255 := by decide

theorem witness_HostReadsChangeNothing :
    (∀ f : StateField, (calling (.readState f) State.reset).calls = .readState f :: []) ∧
      (calling (.readState .errorFlag) { State.reset with errorFlag := true }).errorFlag = true ∧ 255 < 256 ∧
      (calling (.readMemory (255 : Nat)) State.reset).calls = .readMemory (255 : Nat) :: [] :=
  ⟨fun _ => rfl, rfl, by decide, rfl⟩

theorem witness_OutOfRangeHostAddressIsRejected :
    ((-1 : Int) < 0 ∨ (255 : Int) < -1) ∧ ((256 : Int) < 0 ∨ (255 : Int) < 256) ∧
      (calling (.readMemory (-1)) State.reset).calls = .readMemory (-1) :: [] ∧
      (calling (.writeMemory 256 7) State.reset).calls = .writeMemory 256 7 :: [] := by decide

theorem witness_LatchSeesALateHostWrite :
    ([1, 5, 10] : List MicroState).all (fun k =>
        let s := { atPhase k 3 5 5 with calls := [.writeMemory 9 321, .stepClockCycle] }
        !s.errorFlag && decide (s.microState.toNat ∈ [1, 5, 10]) &&
          decide (s.calls = [.writeMemory s.pc.toNat 321, .stepClockCycle])) = true ∧
      ([3, 7] : List MicroState).all (fun k =>
        let s := { atPhase k 255 5 5 with calls := [.writeMemory 255 (-1), .stepClockCycle] }
        !s.errorFlag && decide (s.microState.toNat ∈ [3, 7]) &&
          decide (s.calls = [.writeMemory s.addrReg.toNat (-1), .stepClockCycle])) = true := by decide

theorem witness_BootLeavesTheImageAtTheEntryPoint :
    { atPhase 13 3 5 5 with calls := [.reset, .loadImage [3, 3, 6, 253]], errorFlag := true }.calls =
      [.reset, .loadImage [3, 3, 6, 253]] := by decide

theorem witness_ClearAndJumpIdioms :
    ((code 30 30 1).errorFlag = false ∧ (code 30 30 1).microState = 0 ∧
        (code 30 30 1).memRead (code 30 30 1).pc = (code 30 30 1).memRead ((code 30 30 1).pc + 1) ∧
        (code 30 30 1).memRead ((code 30 30 1).pc + 1) ≠ (code 30 30 1).pc + 2) ∧
      (code 40 40 1).memRead ((code 40 40 1).memRead (code 40 40 1).pc) = 0 := by decide

theorem witness_ZeroTripleClearsCellZeroAndRestarts :
    let s := at0 [(0, 9), (1, 9), (2, 9)] 3
    s.errorFlag = false ∧ s.microState = 0 ∧ s.memRead s.pc = 0 ∧ s.memRead (s.pc + 1) = 0 ∧
      s.memRead (s.pc + 2) = 0 := by decide

theorem witness_SpinStaysForEver :
    let s := { at0 [(9, 40), (10, 40), (11, 9)] 9 with stepping := .instruction }
    let u := { at0 [(9, 40), (10, 40), (11, 9), (40, 5)] 9 with stepping := .instruction }
    (s.errorFlag = false ∧ s.calls = [] ∧ s.stepping = .instruction ∧ s.SpinAt 9 40 ∧ s.microState = 0 ∧ s.pc = 9 ∧
        s.EndOfRun 9 40) ∧
      u.errorFlag = false ∧ u.calls = [] ∧ u.stepping = .instruction ∧ u.SpinAt 9 40 ∧ u.microState = 0 ∧ u.pc = 9 := by
  unfold State.EndOfRun State.SpinAt State.SpinForm; decide

theorem witness_ReachingTheSpinEndsTheRun :
    let s := at0 [(9, 40), (10, 40), (11, 9)] 9
    let u := at0 [(254, 40), (255, 40), (0, 254), (40, 5)] 254
    (s.errorFlag = false ∧ s.calls = [] ∧ s.SpinForm 9 40 ∧ s.microState = 0 ∧ s.pc = 9 ∧ s.memRead 40 = 0) ∧
      u.errorFlag = false ∧ u.calls = [] ∧ u.SpinForm 254 40 ∧ u.SpinAt 254 40 ∧ u.microState = 0 ∧ u.pc = 254 ∧
      u.memRead 40 ≠ 0 := by
  unfold State.SpinAt State.SpinForm; decide

theorem witness_TheEndOfARunIsFinal :
    let s := at0 [(9, 40), (10, 40), (11, 9)] 9
    let u := at0 [(9, 255), (10, 255), (11, 9)] 9
    (RunEndsAt s 9 40 0 s ∧ s.calls = [] ∧ (40 : Byte) ≠ 255) ∧ RunEndsAt u 9 255 0 u ∧ u.calls = [] :=
  ⟨⟨runEndsAt_zero (by unfold State.EndOfRun State.SpinForm; decide), rfl, by decide⟩,
    runEndsAt_zero (by unfold State.EndOfRun State.SpinForm; decide), rfl⟩

/-- V13's cells: three zero cells at 0 are the spin `subleq 0, 0, 0`, so `pc` 0 over zeroed memory is an end. -/
theorem test_zero_triple_is_an_end : State.reset.EndOfRun 0 0 := by unfold State.EndOfRun State.SpinForm; decide

/-- R145: a state with no spin at `h` is not the end of a run, whatever `pc` and `M[z]` are. -/
theorem test_no_spin_no_end : ¬ State.reset.EndOfRun 0 5 := by unfold State.EndOfRun State.SpinForm; decide

/-- R145 and P1's end of run: at `pc` 9 the spin `14, 14, 9` with `M[14] = 0` is the end; with `M[14] = 249` it is not. -/
theorem test_end_of_run_p1 :
    (at0 [(9, 14), (10, 14), (11, 9), (12, 7), (13, 12)] 9).EndOfRun 9 14 ∧
      ¬ (at0 [(9, 14), (10, 14), (11, 9), (12, 7), (13, 12), (14, 249)] 9).EndOfRun 9 14 := by
  unfold State.EndOfRun State.SpinForm; decide

theorem witness_WidePcMachineAgrees :
    (∀ k, (none : Option Nat) = some k → 8 ≤ k) ∧ (∀ k, some 8 = some k → 8 ≤ k) ∧
      ∃ w', wideClockSteps (some 8) 1 { core := atPhase 3 3 5 5, widePc := 255 } = .next w' ∧ w'.widePc = 0 :=
  ⟨by simp, by simp, _, rfl, by decide⟩

theorem witness_SubleqStatementAssemblesToItsCells : 0 + 2 < 256 ∧ 253 + 2 < 256 ∧ (255 < 253 ∨ 253 + 2 < 256) := by decide

end Sys2Proof.Tests
end

section
/-! PROOFS. The clock step item by item, and the loop of the instruction stepper: what every proof about a step starts
from. -/

namespace Sys2Proof.Machine

/-- The state after a clock step, item by item: each register, memory, counter and the flag with the phases that write it
(10_state R10; 40_clock_cycle_state_machine R60 to R72). -/
def State.afterClock (s : State) : State :=
  let k := s.microState.toNat
  { s with
    mem := if k = 8 then s.mem.write s.addrReg.toNat (s.accB - s.accA) else s.mem
    accA := if k = 3 then s.memRead s.addrReg else s.accA
    accB := if k = 7 then s.memRead s.addrReg else s.accB
    addrReg := if k ∈ [1, 5, 10] then s.memRead s.pc else s.addrReg
    pc :=
      if k ∈ [3, 7, 11] then if k = 11 ∧ s.accB.toNat ≤ s.accA.toNat then s.addrReg else s.pc + 1 else s.pc
    microState := if k < 12 then BitVec.ofNat 4 ((k + 1) % 12) else s.microState
    errorFlag := if k < 12 then s.errorFlag else true
    instructionCount := s.instructionCount + if k = 11 then 1 else 0
    clockCount := s.clockCount + if k < 12 then 1 else 0
    out := if k = 8 then if s.addrReg = Config.outAddr then s.out ++ [s.accB - s.accA] else s.out else s.out }

/-- The effect of the row that `microState` selects is the table of `State.afterClock`. -/
theorem rowEffect_decodeMicroState (s : State) : rowEffect (decodeMicroState s.microState) s = s.afterClock := by
  rcases microState_cases s.microState with h | h | h | h | h | h | h | h | h | h | h | h | h | h | h | h <;>
    simp [h, decodeMicroState, rowEffect, State.afterClock, State.endPhase, State.memWrite_eq,
      State.raiseInvariantViolation]

/-- Everything a clock step that answers a next state does. -/
theorem clockStep_next_iff {s t : State} : clockStep s = .next t ↔ s.errorFlag = false ∧ t = s.afterClock := by
  rw [clockStep_eq, unlessFaulted_next_iff, rowEffect_decodeMicroState]

/-- From a legal phase the next one is the successor modulo 12 (40_clock_cycle_state_machine R59). -/
theorem afterClock_microState_of_legal {s : State} (h : s.microState.toNat < 12) :
    s.afterClock.microState.toNat = (s.microState.toNat + 1) % 12 := by
  have hlt : (s.microState.toNat + 1) % 12 < 2 ^ 4 := by omega
  simp only [State.afterClock, if_pos h, BitVec.toNat_ofNat, Nat.mod_eq_of_lt hlt]

/-- On an illegal micro-state the phase stays (60_exceptions R110). -/
theorem afterClock_microState_of_illegal {s : State} (h : 12 ≤ s.microState.toNat) :
    s.afterClock.microState = s.microState := if_neg (Nat.not_lt.2 h)

theorem afterClock_errorFlag_of_legal {s : State} (h : s.microState.toNat < 12) :
    s.afterClock.errorFlag = s.errorFlag := if_pos h

theorem afterClock_clockCount_of_legal {s : State} (h : s.microState.toNat < 12) :
    s.afterClock.clockCount = s.clockCount + 1 := congrArg (s.clockCount + ·) (if_pos h)

theorem afterClock_instructionCount (s : State) :
    s.afterClock.instructionCount = s.instructionCount + if s.microState.toNat = 11 then 1 else 0 := rfl

/-- Outside phase 8 a clock step leaves memory as it is. -/
theorem afterClock_mem_of_ne {s : State} (h : s.microState.toNat ≠ 8) : s.afterClock.mem = s.mem := if_neg h

/-- Outside phase 8 a clock step emits nothing. -/
theorem afterClock_out_of_ne {s : State} (h : s.microState.toNat ≠ 8) : s.afterClock.out = s.out := if_neg h

/-- Phase 8 stores the difference (40_clock_cycle_state_machine R68). -/
theorem afterClock_mem_of_store {s : State} (h : s.microState.toNat = 8) :
    s.afterClock.mem = (s.memWrite s.addrReg (s.accB - s.accA)).mem := by
  rw [State.memWrite_mem]; exact if_pos h

/-- Phase 8 emits what its store emits (40_clock_cycle_state_machine R68). -/
theorem afterClock_out_of_store {s : State} (h : s.microState.toNat = 8) :
    s.afterClock.out = (s.memWrite s.addrReg (s.accB - s.accA)).out := by
  rw [State.memWrite_out]; exact if_pos h

/-- The canonical memory is kept, in phase 8 because the store keeps it. -/
theorem wf_afterClock {s : State} (h : s.mem.wf = true) : s.afterClock.mem.wf = true := by
  by_cases hk : s.microState.toNat = 8
  · rw [afterClock_mem_of_store hk]; exact State.wf_memWrite _ _ h
  · rwa [afterClock_mem_of_ne hk]

/-- Settles O18, item by item from the table of `State.afterClock`. -/
theorem itemsAreWrittenByTheirPhasesOnly : Obligations.ItemsAreWrittenByTheirPhasesOnly := by
  intro s hf hk
  refine ⟨s.afterClock, clockStep_next_iff.2 ⟨hf, rfl⟩, (afterClock_errorFlag_of_legal hk).trans hf,
    afterClock_microState_of_legal hk, afterClock_clockCount_of_legal hk, afterClock_instructionCount s,
    fun h => (ite_ne_right_iff.1 h).1, fun h => (ite_ne_right_iff.1 h).1, fun h => (ite_ne_right_iff.1 h).1,
    fun h => (ite_ne_right_iff.1 h).1, fun h => ?_, rfl, rfl, rfl⟩
  by_contra h8
  exact h.elim (absurd (afterClock_mem_of_ne h8)) (absurd (afterClock_out_of_ne h8))

/-! The loop of the instruction stepper (42_instruction_stepper R95) -/

/-- One turn of the loop: a clock step, after which it is over or goes on from a phase other than 0. -/
theorem runToPhaseZero_succ_next {n : Nat} {s t : State} (h : runToPhaseZero (n + 1) s = .next t) :
    s.errorFlag = false ∧
      (t = s.afterClock ∨ s.afterClock.microState ≠ 0 ∧ runToPhaseZero n s.afterClock = .next t) := by
  rw [runToPhaseZero] at h
  split at h
  next u hu =>
    obtain ⟨hf, rfl⟩ := clockStep_next_iff.1 hu
    refine ⟨hf, ?_⟩
    split at h
    next => cases h; exact .inl rfl
    next hgo => exact .inr ⟨fun h0 => by simp [h0] at hgo, h⟩
  next => cases h
  next => cases h

/-- What every clock step keeps, the loop keeps. -/
theorem runToPhaseZero_keeps {P : State → Prop} (hP : ∀ s : State, s.errorFlag = false → P s → P s.afterClock)
    {n : Nat} {s t : State} (hs : P s) (h : runToPhaseZero n s = .next t) : P t := by
  induction n generalizing s with
  | zero => cases h; exact hs
  | succ n ih =>
    obtain ⟨hf, rfl | ⟨-, hgo⟩⟩ := runToPhaseZero_succ_next h
    · exact hP s hf hs
    · exact ih (hP s hf hs) hgo

end Sys2Proof.Machine
end

section
/-! PROOFS. What one atomic action can do to the block (00_scope R4), said once, and what every action keeps. -/

namespace Sys2Proof.Machine

/-- The effect of one action, its report left out: a step of the CPU, or what a host operation does to the block. The
list `cs` is what is left of the pending calls. -/
inductive ActionEffect (s : State) : State → Prop where
  | clock (cs : List HostCall) {u : State} (h : clockStep { s with calls := cs } = .next u) : ActionEffect s u
  | instruction (cs : List HostCall) {u : State} (h : stepInstruction { s with calls := cs } = .next u) :
    ActionEffect s u
  | reset (cs : List HostCall) (h : s.calls = .reset :: cs) : ActionEffect s { s with calls := cs }.hostReset
  | load (cs : List HostCall) (bytes : List Byte) : ActionEffect s ({ s with calls := cs }.loadImage bytes)
  | store (cs : List HostCall) (a v : Byte) : ActionEffect s ({ s with calls := cs }.memWrite a v)
  | idle (cs : List HostCall) : ActionEffect s { s with calls := cs }

/-- Everything a host operation can do: an effect, and one reply. -/
theorem serve_cases {s t : State} {c : HostCall} {cs : List HostCall} (hc : s.calls = c :: cs)
    (h : serve c { s with calls := cs } = .next t) : ∃ u r, ActionEffect s u ∧ t = u.answer r := by
  cases c with
  | reset => cases h; exact ⟨_, _, .reset cs hc, rfl⟩
  | loadImage bytes => cases h; exact ⟨_, _, .load cs bytes, rfl⟩
  | stepClockCycle =>
    obtain ⟨u, r, hu, rfl⟩ | ⟨r, rfl⟩ := reportStep_cases h
    · exact ⟨u, r, .clock cs hu, rfl⟩
    · exact ⟨_, r, .idle cs, rfl⟩
  | stepInstruction =>
    obtain ⟨u, r, hu, rfl⟩ | ⟨r, rfl⟩ := reportStep_cases h
    · exact ⟨u, r, .instruction cs hu, rfl⟩
    · exact ⟨_, r, .idle cs, rfl⟩
  | readState f => cases h; exact ⟨_, _, .idle cs, rfl⟩
  | readMemory x => cases h; exact ⟨_, _, .idle cs, rfl⟩
  | writeMemory x v =>
    simp only [serve] at h
    split at h
    · cases h; exact ⟨_, _, .store cs _ _, rfl⟩
    · cases h; exact ⟨_, _, .idle cs, rfl⟩

/-- Everything an action that answers a next state can do. -/
theorem step_cases {s t : State} (h : step s = .next t) :
    ActionEffect s t ∨ ∃ u r, ActionEffect s u ∧ t = u.answer r := by
  cases hc : s.calls with
  | cons c cs => exact .inr (serve_cases hc ((step_of_call hc).symm.trans h))
  | nil =>
    cases hs : s.stepping with
    | clockCycle => exact .inl (.clock s.calls ((step_clockCycle hc hs).symm.trans h))
    | instruction => exact .inl (.instruction s.calls ((step_instruction hc hs).symm.trans h))

/-- What every effect leaves true of the next state, and no reply disturbs, every action leaves true. -/
theorem step_establishes {P : State → Prop} {s t : State} (h : step s = .next t) (heffect : ∀ u, ActionEffect s u → P u)
    (hanswer : ∀ u r, P u → P (u.answer r)) : P t := by
  obtain ha | ⟨u, r, ha, rfl⟩ := step_cases h
  · exact heffect t ha
  · exact hanswer u r (heffect u ha)

/-! The invariant -/

/-- A clock step keeps the invariant: the phase moves with `clockCount`, and from phase 11 both go over into
`instructionCount` (10_state R19). -/
theorem inv_afterClock {s : State} (h : s.Inv = true) : s.afterClock.Inv = true := by
  obtain ⟨hm, hf, hk, hc⟩ := (inv_iff s).1 h
  refine (inv_iff _).2 ⟨wf_afterClock hm, (afterClock_errorFlag_of_legal hk).trans hf, ?_, ?_⟩
  · rw [afterClock_microState_of_legal hk]; omega
  · rw [afterClock_clockCount_of_legal hk, afterClock_instructionCount, afterClock_microState_of_legal hk]
    split <;> omega

theorem inv_hostReset (s : State) : s.hostReset.Inv = true := rfl

/-- An image is cut to the address space, so its copy keeps the invariant (43_host_interface R102). -/
theorem inv_loadImage {s : State} (bytes : List Byte) (h : s.Inv = true) : (s.loadImage bytes).Inv = true := by
  obtain ⟨hm, hrest⟩ := (inv_iff s).1 h
  have hlen : 0 + (bytes.take Config.memDepth).length ≤ Config.memDepth := by
    rw [Nat.zero_add]; exact List.length_take_le ..
  exact (inv_iff _).2 ⟨Memory.wf_load hm hlen, hrest⟩

theorem inv_memWrite {s : State} (a v : Byte) (h : s.Inv = true) : (s.memWrite a v).Inv = true := by
  obtain ⟨hm, hrest⟩ := (inv_iff s).1 h
  exact (inv_iff _).2 ⟨State.wf_memWrite a v hm, by simpa using hrest⟩

theorem inv_actionEffect {s u : State} (hs : s.Inv = true) (h : ActionEffect s u) : u.Inv = true := by
  cases h with
  | clock cs h => obtain ⟨-, rfl⟩ := clockStep_next_iff.1 h; exact inv_afterClock hs
  | instruction cs h =>
    exact runToPhaseZero_keeps (P := (State.Inv · = true)) (s := { s with calls := cs }) (fun _ _ => inv_afterClock) hs h
  | reset cs hc => exact inv_hostReset _
  | load cs bytes => exact inv_loadImage bytes hs
  | store cs a v => exact inv_memWrite a v hs
  | idle cs => exact hs

/-- Settles O35: every effect keeps the invariant, and a reply does not touch it. -/
theorem everyActionKeepsTheInvariant : Obligations.EveryActionKeepsTheInvariant := fun _ _ hs h =>
  step_establishes (P := (State.Inv · = true)) h (fun _ => inv_actionEffect hs) fun _ _ hu => hu

/-! The fault flag -/

/-- A clock step from a legal phase without the fault goes to another such state (40_clock_cycle_state_machine R75). -/
theorem legal_afterClock {s : State} (h : s.errorFlag = false ∧ s.microState.toNat < 12) :
    s.afterClock.errorFlag = false ∧ s.afterClock.microState.toNat < 12 := by
  obtain ⟨hf, hk⟩ := h
  refine ⟨(afterClock_errorFlag_of_legal hk).trans hf, ?_⟩
  rw [afterClock_microState_of_legal hk]; omega

/-- From a legal micro-state no action sets the flag (60_exceptions R113). -/
theorem actionEffect_errorFlag_of_legal {s u : State} (hs : s.errorFlag = false ∧ s.microState.toNat < 12)
    (h : ActionEffect s u) : u.errorFlag = false := by
  cases h with
  | clock cs h => obtain ⟨-, rfl⟩ := clockStep_next_iff.1 h; exact (legal_afterClock hs).1
  | instruction cs h =>
    exact (runToPhaseZero_keeps (P := fun v => v.errorFlag = false ∧ v.microState.toNat < 12)
      (s := { s with calls := cs }) (fun _ _ => legal_afterClock) hs h).1
  | reset cs hc => rfl
  | load cs bytes => exact hs.1
  | store cs a v => rw [State.memWrite_errorFlag]; exact hs.1
  | idle cs => exact hs.1

/-- With the flag set the CPU takes no step, and of the host's operations only `reset()` clears it (60_exceptions R117). -/
theorem actionEffect_errorFlag_of_set {s u : State} (hs : s.errorFlag = true) (h : ActionEffect s u) :
    u.errorFlag = true ∨ ∃ cs, s.calls = .reset :: cs := by
  cases h with
  | clock cs h => cases hs.symm.trans (clockStep_next_iff.1 h).1
  | instruction cs h => cases hs.symm.trans (runToPhaseZero_succ_next h).1
  | reset cs hc => exact .inr ⟨cs, hc⟩
  | load cs bytes => exact .inl hs
  | store cs a v => left; rw [State.memWrite_errorFlag]; exact hs
  | idle cs => exact .inl hs

/-- Settles O16: the two lemmas about the flag, each read backwards. -/
theorem onlyTheFaultSetsTheFlagOnlyResetClearsIt : Obligations.OnlyTheFaultSetsTheFlagOnlyResetClearsIt := by
  intro s t h
  refine ⟨fun hf ht => ?_, fun hf ht => ?_⟩
  · by_contra hk
    have hclear : t.errorFlag = false := step_establishes (P := (State.errorFlag · = false)) h
      (fun _ => actionEffect_errorFlag_of_legal ⟨hf, Nat.not_le.1 hk⟩) fun _ _ hu => hu
    exact Bool.false_ne_true (hclear.symm.trans ht)
  · obtain ha | ⟨u, r, ha, rfl⟩ := step_cases h
    · exact (actionEffect_errorFlag_of_set hf ha).resolve_left (ne_true_of_eq_false ht)
    · exact (actionEffect_errorFlag_of_set hf ha).resolve_left (ne_true_of_eq_false ht)

/-! The output stream -/

/-- From `s` to `t` the output stays, or grows by the byte that cell 255 holds in `t` (20_memory R33). -/
def OutGrowsByCell (s t : State) : Prop := t.out = s.out ∨ t.out = s.out ++ [t.mem.read 255]

/-- A store emits exactly when it hits cell 255, and that cell then holds the byte (20_memory R32, R33). -/
theorem outGrowsByCell_memWrite (s : State) (a v : Byte) : OutGrowsByCell s (s.memWrite a v) := by
  by_cases ha : a = Config.outAddr
  · right
    have hread : (s.memWrite a v).mem.read 255 = v := by
      rw [State.memWrite_mem, (eq_outAddr_iff a).1 ha, Memory.read_write, if_pos rfl]
    rw [hread, State.memWrite_out, if_pos ha]
  · left
    rw [State.memWrite_out, if_neg ha]

theorem outGrowsByCell_afterClock (s : State) : OutGrowsByCell s s.afterClock := by
  by_cases hk : s.microState.toNat = 8
  · rw [OutGrowsByCell, afterClock_mem_of_store hk, afterClock_out_of_store hk]
    exact outGrowsByCell_memWrite s _ _
  · exact .inl (afterClock_out_of_ne hk)

/-- Once past phase 8 the loop ends before the next store: memory and output stay. -/
theorem runToPhaseZero_after_store {n : Nat} {s t : State} (hk : 8 < s.microState.toNat)
    (h : runToPhaseZero n s = .next t) : t.mem = s.mem ∧ t.out = s.out := by
  induction n generalizing s with
  | zero => cases h; exact ⟨rfl, rfl⟩
  | succ n ih =>
    have hmem := afterClock_mem_of_ne (s := s) (by omega)
    have hout := afterClock_out_of_ne (s := s) (by omega)
    obtain ⟨-, rfl | ⟨hne, hgo⟩⟩ := runToPhaseZero_succ_next h
    · exact ⟨hmem, hout⟩
    · have hk' : 8 < s.afterClock.microState.toNat := by
        by_cases hlegal : s.microState.toNat < 12
        · have hne' : s.afterClock.microState.toNat ≠ 0 := fun h0 => hne (BitVec.eq_of_toNat_eq h0)
          rw [afterClock_microState_of_legal hlegal] at hne' ⊢
          omega
        · rwa [afterClock_microState_of_illegal (Nat.not_lt.1 hlegal)]
      rw [← hmem, ← hout]
      exact ih hk' hgo

/-- The loop passes phase 8 at most once: before it nothing is emitted, and after it nothing is stored. -/
theorem outGrowsByCell_runToPhaseZero {n : Nat} {s t : State} (h : runToPhaseZero n s = .next t) :
    OutGrowsByCell s t := by
  induction n generalizing s with
  | zero => cases h; exact .inl rfl
  | succ n ih =>
    obtain ⟨-, rfl | ⟨-, hgo⟩⟩ := runToPhaseZero_succ_next h
    · exact outGrowsByCell_afterClock s
    · by_cases hk : s.microState.toNat = 8
      · have hk' : 8 < s.afterClock.microState.toNat := by
          rw [afterClock_microState_of_legal (by omega)]; omega
        obtain ⟨hmem, hout⟩ := runToPhaseZero_after_store hk' hgo
        rw [OutGrowsByCell, hmem, hout]
        exact outGrowsByCell_afterClock s
      · have hgrow := ih hgo
        rwa [OutGrowsByCell, afterClock_out_of_ne hk] at hgrow

theorem outGrowsByCell_actionEffect {s u : State} (h : ActionEffect s u) : OutGrowsByCell s u := by
  cases h with
  | clock cs h => obtain ⟨-, rfl⟩ := clockStep_next_iff.1 h; exact outGrowsByCell_afterClock { s with calls := cs }
  | instruction cs h => exact outGrowsByCell_runToPhaseZero (s := { s with calls := cs }) h
  | reset cs hc => exact .inl rfl
  | load cs bytes => exact .inl rfl
  | store cs a v => exact outGrowsByCell_memWrite { s with calls := cs } a v
  | idle cs => exact .inl rfl

/-- Settles O19: at most one store per action reaches cell 255, and its byte is emitted once. -/
theorem outputGrowsByTheStoredByte : Obligations.OutputGrowsByTheStoredByte := fun s _ h =>
  step_establishes (P := OutGrowsByCell s) h (fun _ => outGrowsByCell_actionEffect) fun _ _ hu => hu

end Sys2Proof.Machine
end

section
/-! PROOFS. The wide-pc machine simulates the 8-bit machine (10_state R14): one commuting square per clock step. -/

namespace Sys2Proof.Machine

/-- A wide counter of 8 or more bits, or an unbounded one, is incremented in its low 8 bits as the 8-bit `pc` is. -/
theorem ofNat_wideInc {width : Option Nat} (hw : ∀ k, width = some k → 8 ≤ k) (p : Nat) :
    BitVec.ofNat 8 (wideInc width p) = BitVec.ofNat 8 p + 1 := by
  have hsucc : BitVec.ofNat 8 (p + 1) = BitVec.ofNat 8 p + 1 := BitVec.ofNat_add ..
  cases width with
  | none => exact hsucc
  | some k =>
    rw [← hsucc]
    apply BitVec.eq_of_toNat_eq
    have hdvd : 2 ^ 8 ∣ 2 ^ k := Nat.pow_dvd_pow 2 (hw k rfl)
    rw [BitVec.toNat_ofNat, BitVec.toNat_ofNat, wideInc, Nat.mod_mod_of_dvd _ hdvd]

/-- The wide `pc` moves in the phases in which the 8-bit `pc` does (10_state R13, R14). -/
theorem nextPc_decodeMicroState (width : Option Nat) (w : WideState) (k : MicroState) :
    w.nextPc width (decodeMicroState k) =
      if k.toNat ∈ [3, 7, 11] then
        if k.toNat = 11 ∧ w.core.accB.toNat ≤ w.core.accA.toNat then w.core.addrReg.toNat else wideInc width w.widePc
      else w.widePc := by
  rcases microState_cases k with rfl | rfl | rfl | rfl | rfl | rfl | rfl | rfl | rfl | rfl | rfl | rfl | rfl | rfl | rfl |
      rfl <;>
    simp [decodeMicroState, WideState.nextPc]

/-- The next wide `pc`, presented, is the next 8-bit `pc` of the presented state. -/
theorem ofNat_nextPc {width : Option Nat} (hw : ∀ k, width = some k → 8 ≤ k) (w : WideState) :
    BitVec.ofNat 8 (w.nextPc width (decodeMicroState w.core.microState)) = w.narrow.afterClock.pc := by
  rw [nextPc_decodeMicroState, apply_ite (BitVec.ofNat 8), apply_ite (BitVec.ofNat 8), ofNat_wideInc hw,
    BitVec.ofNat_toNat, BitVec.setWidth_eq]
  rfl

/-- An outcome of the wide-pc machine as the 8-bit machine's: the next state presented. -/
def narrowOutcome : Host.Outcome WideState Fault Refusal → Host.Outcome State Fault Refusal
  | .next w => .next w.narrow
  | .fault r => .fault r
  | .refused r => .refused r

/-- The commuting square of one clock step. -/
theorem narrowOutcome_wideClockStep {width : Option Nat} (hw : ∀ k, width = some k → 8 ≤ k) (w : WideState) :
    narrowOutcome (wideClockStep width w) = clockStep w.narrow := by
  rw [wideClockStep]
  cases hs : clockStep w.narrow with
  | next s' =>
    obtain ⟨-, rfl⟩ := clockStep_next_iff.1 hs
    simp only [narrowOutcome, WideState.narrow, ofNat_nextPc hw]
  | fault r => rfl
  | refused r => rfl

/-- The commuting square of a run. -/
theorem narrowOutcome_wideClockSteps {width : Option Nat} (hw : ∀ k, width = some k → 8 ≤ k) (n : Nat)
    (w : WideState) : narrowOutcome (wideClockSteps width n w) = clockSteps n w.narrow := by
  induction n generalizing w with
  | zero => rfl
  | succ n ih =>
    rw [wideClockSteps, clockSteps, ← narrowOutcome_wideClockStep hw w]
    cases wideClockStep width w with
    | next w' => exact ih w'
    | fault r => rfl
    | refused r => rfl

/-- Settles O48: both directions are read off the commuting square of the run. -/
theorem widePcMachineAgrees : Obligations.WidePcMachineAgrees := by
  intro width n w hw
  rw [← narrowOutcome_wideClockSteps hw n w]
  refine ⟨fun w' h => congrArg narrowOutcome h, fun t ht => ?_⟩
  cases h : wideClockSteps width n w with
  | next w' => rw [h] at ht; cases ht; exact ⟨w', rfl, rfl⟩
  | fault r => rw [h] at ht; cases ht
  | refused r => rw [h] at ht; cases ht

end Sys2Proof.Machine
end

section
/-! PROOFS. The memory interface (20_memory): the signal view against what the clock steps do, the order of the accesses
of one instruction, and the host write that comes between an assert and its latch. -/

namespace Sys2Proof.Machine

/-! The signal view (20_memory R45) -/

/-- An assert phase makes no access: what it drives is not sampled. -/
@[simp] theorem access_assert (a : Byte) : (Signals.assert a).access = none := rfl

/-- A latch phase reads the cell at the address. -/
@[simp] theorem access_latch (a : Byte) (r : ReadTarget) : (Signals.latch a r).access = some (.read a) := rfl

@[simp] theorem access_idle : Signals.idle.access = none := rfl

/-- The write enable with an address and a byte on the buses is a write. -/
@[simp] theorem access_write (a v : Byte) (r : Option ReadTarget) (b : Bool) :
    ({ addr := some a, we := true, wdata := some v, rdataTo := r, outValid := b } : Signals).access =
      some (.write a v) := rfl

theorem signals_of_clear {s : State} (hf : s.errorFlag = false) :
    s.signals = rowSignals (decodeMicroState s.microState) s := by
  simp [State.signals, hf]

/-- The write enable is driven in phase 8 only. -/
theorem signals_we_iff {s : State} (hf : s.errorFlag = false) : s.signals.we = true ↔ s.microState = 8 := by
  rw [signals_of_clear hf]
  rcases microState_cases s.microState with h | h | h | h | h | h | h | h | h | h | h | h | h | h | h | h <;>
    simp [h, decodeMicroState, rowSignals, Signals.assert, Signals.latch, Signals.idle]

/-- The strobe is driven in phase 8 only, and there at the output-mapped address. -/
theorem signals_outValid_iff {s : State} (hf : s.errorFlag = false) :
    s.signals.outValid = true ↔ s.microState = 8 ∧ s.addrReg = Config.outAddr := by
  rw [signals_of_clear hf]
  rcases microState_cases s.microState with h | h | h | h | h | h | h | h | h | h | h | h | h | h | h | h <;>
    simp [h, decodeMicroState, rowSignals, Signals.assert, Signals.latch, Signals.idle]

/-- The write data of phase 8 is the byte that it stores (40_clock_cycle_state_machine R68). -/
theorem signals_wdata_of_store {s : State} (hf : s.errorFlag = false) (hk : s.microState = 8) :
    s.signals.wdata = some (s.accB - s.accA) := by
  rw [signals_of_clear hf, hk, ← subtract_eq]; rfl

/-- Settles O29: phase 8 strobes at address 255, which is where its store emits the write data; no other phase strobes or
emits. -/
theorem outValidStrobesTheEmission : Obligations.OutValidStrobesTheEmission := by
  intro s t h
  obtain ⟨hf, rfl⟩ := clockStep_next_iff.1 h
  refine ⟨?_, signals_outValid_iff hf, signals_we_iff hf⟩
  by_cases hk : s.microState = 8
  · rw [afterClock_out_of_store (congrArg BitVec.toNat hk), State.memWrite_out, signals_wdata_of_store hf hk]
    by_cases ha : s.addrReg = Config.outAddr <;> simp [signals_outValid_iff hf, hk, ha]
  · have hne : s.microState.toNat ≠ 8 := fun h8 => hk (BitVec.eq_of_toNat_eq h8)
    have hquiet : ¬ s.signals.outValid = true := fun hv => hk ((signals_outValid_iff hf).1 hv).1
    rw [afterClock_out_of_ne hne, if_neg hquiet, List.append_nil]

/-! Assert and latch (20_memory R44, R46) -/

/-- An assert phase drives an address, and the phase after it drives the same one and samples into the register of that
phase. -/
theorem signals_of_assert {s : State} (hf : s.errorFlag = false) (hk : s.microState.toNat ∈ [0, 2, 4, 6, 9]) :
    ∃ a r, s.signals = Signals.assert a ∧ s.afterClock.signals = Signals.latch a r ∧
      (r = .accA ↔ s.microState = 2) ∧ (r = .accB ↔ s.microState = 6) := by
  have hlegal : s.microState.toNat < 12 := by simp at hk; omega
  have hf' : s.afterClock.errorFlag = false := (legal_afterClock ⟨hf, hlegal⟩).1
  rw [signals_of_clear hf, signals_of_clear hf', ← rowEffect_decodeMicroState]
  have hcases : s.microState = 0 ∨ s.microState = 2 ∨ s.microState = 4 ∨ s.microState = 6 ∨ s.microState = 9 := by
    simpa [← BitVec.toNat_inj] using hk
  rcases hcases with h | h | h | h | h <;> rw [h]
  · exact ⟨s.pc, .addrReg, rfl, rfl, by decide, by decide⟩
  · exact ⟨s.addrReg, .accA, rfl, rfl, by decide, by decide⟩
  · exact ⟨s.pc, .addrReg, rfl, rfl, by decide, by decide⟩
  · exact ⟨s.addrReg, .accB, rfl, rfl, by decide, by decide⟩
  · exact ⟨s.pc, .addrReg, rfl, rfl, by decide, by decide⟩

/-- Where the signals are those of a latch, the step loads the cell at the address into the register. -/
theorem afterClock_sampled_of_latch {s : State} {a : Byte} {r : ReadTarget} (hf : s.errorFlag = false)
    (h : s.signals = Signals.latch a r) : s.afterClock.sampled r = s.memRead a := by
  rw [signals_of_clear hf] at h
  rw [← rowEffect_decodeMicroState]
  rcases microState_cases s.microState with hk | hk | hk | hk | hk | hk | hk | hk | hk | hk | hk | hk | hk | hk | hk |
      hk <;>
    rw [hk] at h ⊢ <;> cases h <;> rfl

/-- Settles O28: the pair of signals of an assert and its latch, and what a latch's signals say of its step. -/
theorem assertPresentsTheLatchedAddress : Obligations.AssertPresentsTheLatchedAddress := by
  intro s hf hk
  have hne : s.microState.toNat ≠ 8 := by simp at hk; omega
  have hlegal : s.microState.toNat < 12 := by simp at hk; omega
  have hf' : s.afterClock.errorFlag = false := (legal_afterClock ⟨hf, hlegal⟩).1
  obtain ⟨a, r, hassert, hlatch, haccA, haccB⟩ := signals_of_assert hf hk
  refine ⟨a, r, s.afterClock, s.afterClock.afterClock, hassert, clockStep_next_iff.2 ⟨hf, rfl⟩,
    afterClock_mem_of_ne hne, hlatch, ?_, ?_, haccA, haccB, clockStep_next_iff.2 ⟨hf', rfl⟩,
    afterClock_sampled_of_latch hf' hlatch⟩
  · rw [hlatch, access_latch]
  · rw [hlatch]; rfl

/-! The accesses of one instruction (20_memory R37) -/

/-- The accesses from a state that is about to perform the row `i`: the row's own, then those after its effect. -/
theorem accessTrace_of_row {s : State} (i : Instr) {n : Nat} (hf : s.errorFlag = false)
    (hi : decodeMicroState s.microState = i) :
    accessTrace (n + 1) s = (rowSignals i s).access.toList ++ accessTrace n (rowEffect i s) := by
  rw [accessTrace, exec_eq, unlessFaulted_of_clear hf, signals_of_clear hf, hi]

/-- Settles O27: the twelve rows in turn; each of the five latches reads, phase 8 writes, the other phases make no
access. -/
theorem sixAccessesInOrder : Obligations.SixAccessesInOrder := by
  intro s hf hk
  rw [accessTrace_of_row .p0AssertPcA, accessTrace_of_row .p1LatchAAddr, accessTrace_of_row .p2AssertMarA,
    accessTrace_of_row .p3LatchAVal, accessTrace_of_row .p4AssertPcB, accessTrace_of_row .p5LatchBAddr,
    accessTrace_of_row .p6AssertMarB, accessTrace_of_row .p7LatchBVal, accessTrace_of_row .p8SubStore,
    accessTrace_of_row .p9AssertPcC, accessTrace_of_row .p10LatchC, accessTrace_of_row .p11Branch]
  · simp [rowEffect, rowSignals, accessTrace, State.memRead, BitVec.add_assoc]
  all_goals simp [rowEffect, hf, hk, decodeMicroState]

/-! A host write between assert and latch (20_memory R46, decision D16) -/

theorem wrap8_toNat_cast (a : Byte) : wrap8 (a.toNat : Int) = a := by
  rw [wrap8_eq_iff]; have := a.isLt; omega

/-- The action of a host write at the address in a byte (43_host_interface R107). -/
theorem step_of_writeMemory {s : State} {a : Byte} {v : Int} {rest : List HostCall}
    (hc : s.calls = .writeMemory a.toNat v :: rest) :
    step s = .next (({ s with calls := rest }.memWrite a (wrap8 v)).answer .returned) := by
  have hok : hostAddrOk a.toNat = true := (hostAddrOk_iff _).2 (by have := a.isLt; omega)
  rw [step_of_call hc, serve, if_pos hok, wrap8_toNat_cast]

/-- The action of a host clock step from a legal phase without the fault (43_host_interface R103). -/
theorem step_of_stepClockCycle {s : State} {rest : List HostCall} (hc : s.calls = .stepClockCycle :: rest)
    (hf : s.errorFlag = false) (hk : s.microState.toNat < 12) :
    step s = .next ({ s with calls := rest }.afterClock.answer .stepped) := by
  have hf' : { s with calls := rest }.afterClock.errorFlag = false :=
    (legal_afterClock (s := { s with calls := rest }) ⟨hf, hk⟩).1
  have hclock : clockStep { s with calls := rest } = .next { s with calls := rest }.afterClock :=
    clockStep_next_iff.2 ⟨hf, rfl⟩
  rw [step_of_call hc, serve, hclock, reportStep_next, hf']
  rfl

/-- The state that a clock step finds after the host wrote `v` at `a` and no call is left. -/
def State.lateWrite (s : State) (a : Byte) (v : Int) : State :=
  ({ s with calls := [] }.memWrite a (wrap8 v)).answer .returned

theorem lateWrite_memRead (s : State) (a : Byte) (v : Int) : (s.lateWrite a v).memRead a = wrap8 v :=
  (State.memRead_memWrite { s with calls := [] } a a (wrap8 v)).trans (if_pos rfl)

@[simp] theorem lateWrite_microState (s : State) (a : Byte) (v : Int) : (s.lateWrite a v).microState = s.microState := by
  simp [State.lateWrite]

@[simp] theorem lateWrite_pc (s : State) (a : Byte) (v : Int) : (s.lateWrite a v).pc = s.pc := by
  simp [State.lateWrite]

@[simp] theorem lateWrite_addrReg (s : State) (a : Byte) (v : Int) : (s.lateWrite a v).addrReg = s.addrReg := by
  simp [State.lateWrite]

@[simp] theorem lateWrite_replies (s : State) (a : Byte) (v : Int) :
    (s.lateWrite a v).replies = s.replies ++ [.returned] := by
  simp [State.lateWrite]

/-- A host write and a host clock step in a row: the clock step runs on the memory just written. -/
theorem run_lateWrite {s : State} {a : Byte} {v : Int} (hf : s.errorFlag = false) (hk : s.microState.toNat < 12)
    (hc : s.calls = [.writeMemory a.toNat v, .stepClockCycle]) :
    Host.Core.run core 2 s = .next ((s.lateWrite a v).afterClock.answer .stepped) := by
  rw [run_succ 1 (step_of_writeMemory hc),
    run_succ 0 (step_of_stepClockCycle (rest := []) (by simp) (by simpa using hf) (by simpa using hk)), State.lateWrite,
    State.memWrite_eq, State.memWrite_eq]
  rfl

/-- Phases 1, 5 and 10 latch the cell at `pc` into `addrReg` (40_clock_cycle_state_machine R61, R65, R70). -/
theorem afterClock_addrReg_of_latch {s : State} (hk : s.microState.toNat ∈ [1, 5, 10]) :
    s.afterClock.addrReg = s.memRead s.pc := if_pos hk

/-- Phase 3 latches the cell at `addrReg` into `accA` (40_clock_cycle_state_machine R63). -/
theorem afterClock_accA_of_latch {s : State} (hk : s.microState = 3) : s.afterClock.accA = s.memRead s.addrReg :=
  if_pos (congrArg BitVec.toNat hk)

/-- Phase 7 latches the cell at `addrReg` into `accB` (40_clock_cycle_state_machine R67). -/
theorem afterClock_accB_of_latch {s : State} (hk : s.microState = 7) : s.afterClock.accB = s.memRead s.addrReg :=
  if_pos (congrArg BitVec.toNat hk)

/-- Settles O43: the clock step runs on the memory just written, and its latch reads the written cell. -/
theorem latchSeesALateHostWrite : Obligations.LatchSeesALateHostWrite := by
  intro s v hf
  have hreplies (a : Byte) :
      ((s.lateWrite a v).afterClock.answer .stepped).replies = s.replies ++ [.returned, .stepped] := by
    simp [State.afterClock]
  refine ⟨fun hk hc => ?_, fun hk hc => ?_⟩
  · have hlegal : s.microState.toNat < 12 := by simp at hk; omega
    refine ⟨_, run_lateWrite hf hlegal hc, ?_, hreplies s.pc⟩
    rw [State.answer_addrReg, afterClock_addrReg_of_latch (by simpa using hk), lateWrite_pc, lateWrite_memRead,
      wrap8_toNat]
  · have hlegal : s.microState.toNat < 12 := by simp at hk; omega
    refine ⟨_, run_lateWrite hf hlegal hc, fun h3 => ?_, fun h7 => ?_, hreplies s.addrReg⟩
    · rw [State.answer_accA, afterClock_accA_of_latch (by simpa using h3), lateWrite_addrReg, lateWrite_memRead,
        wrap8_toNat]
    · rw [State.answer_accB, afterClock_accB_of_latch (by simpa using h7), lateWrite_addrReg, lateWrite_memRead,
        wrap8_toNat]

end Sys2Proof.Machine
end

section
/-! PROOFS. The encoding (30_encoding): decoder against encoder, the spec's assembler, and the twelve clock steps
of one instruction against the execution of the SUBLEQ that its three cells encode. -/

namespace Sys2Proof

/-! Decoder and encoder (30_encoding R51, R53, R55) -/

/-- There is nothing to check (30_encoding R53, R58). -/
theorem Instr.wellFormed_eq_true (i : Instr) : i.WellFormed = true := by cases i <;> rfl

@[simp] theorem decode_abc_cons (a b c : Byte) (rest : List Byte) :
    decode .abc (a :: b :: c :: rest) = .instr (.subleq a b c) rest := rfl

/-- The decoder reads back what the encoder wrote, whatever bytes follow. -/
theorem decode_encode_append (i : Instr) (rest : List Byte) : decode i.format (encode i ++ rest) = .instr i rest := by
  cases i <;> rfl

/-- Every value of `microState` selects a row of its format, and the row's code is that value in a whole byte. -/
theorem encode_decodeMicroState (k : MicroState) :
    (decodeMicroState k).format = .microState4 ∧ encode (decodeMicroState k) = [k.zeroExtend 8] := by
  revert k; decide

/-- A byte below 16 is the value that its low four bits hold. -/
theorem zeroExtend_ofNat_of_lt {k : Byte} (h : k.toNat < 16) : (BitVec.ofNat 4 k.toNat).zeroExtend 8 = k := by
  apply BitVec.eq_of_toNat_eq
  simp only [BitVec.truncate_eq_setWidth, BitVec.toNat_setWidth, BitVec.toNat_ofNat]
  omega

/-- What the decoder accepts is the code of the instruction it answers, followed by what it leaves. -/
theorem encode_of_decode {f : Format} {bytes rest : List Byte} {i : Instr} (h : decode f bytes = .instr i rest) :
    i.format = f ∧ bytes = encode i ++ rest := by
  unfold decode at h
  split at h
  next a b c rest' => cases h; exact ⟨rfl, rfl⟩
  next => cases h
  next k rest' =>
    split at h
    next hk =>
      cases h
      obtain ⟨hformat, hcode⟩ := encode_decodeMicroState (BitVec.ofNat 4 k.toNat)
      rw [hcode, zeroExtend_ofNat_of_lt hk]
      exact ⟨hformat, rfl⟩
    next => cases h
  next => cases h

/-- Settles O1: what the decoder accepts is a code, and every code is read back. -/
theorem decodeAndEncodeAgree : Obligations.DecodeAndEncodeAgree := by
  intro f bytes i rest
  constructor
  · intro h
    exact ⟨i.wellFormed_eq_true, encode_of_decode h⟩
  · rintro ⟨-, rfl, rfl⟩
    exact decode_encode_append i rest

end Sys2Proof

namespace Sys2Proof.Machine

/-! Twelve clock steps and one SUBLEQ (30_encoding R58; 41_subleq_instruction R80) -/

/-- The instruction that the three cells at `pc` encode (30_encoding R51, R58). -/
def State.fetched (s : State) : Instr := .subleq (s.memRead s.pc) (s.memRead (s.pc + 1)) (s.memRead (s.pc + 2))

/-- The decoder reads the cells at `pc` as `State.fetched`. -/
theorem decode_instrCells (s : State) : decode .abc s.instrCells = .instr s.fetched [] := by
  simp [State.instrCells, State.aCellAddr, State.fetched]

/-- Clock steps from a state that is about to perform the row `i`: the effect of the row, then the other steps. -/
theorem clockSteps_of_row {s : State} (i : Instr) {n : Nat} (hf : s.errorFlag = false)
    (hi : decodeMicroState s.microState = i) : clockSteps (n + 1) s = clockSteps n (rowEffect i s) := by
  rw [clockSteps_succ n hf, hi]

/-- A read after a write, both addresses bytes: the written byte exactly where the two are one. -/
theorem Memory.read_write_byte (m : Memory) (a b v : Byte) :
    (m.write a.toNat v).read b.toNat = if a = b then v else m.read b.toNat := by
  simp only [Memory.read_write, BitVec.toNat_inj, eq_comm]

/-- The twelve phases in turn have together the effect of the fetched SUBLEQ: A and B are read before the store of phase
8, C after it, so a store into the own C cell is what phase 10 latches (41_subleq_instruction R88). -/
theorem clockSteps_twelve {s : State} (hf : s.errorFlag = false) (hk : s.microState = 0) :
    clockSteps 12 s = .next (rowEffect s.fetched s) := by
  rw [clockSteps_of_row .p0AssertPcA, clockSteps_of_row .p1LatchAAddr, clockSteps_of_row .p2AssertMarA,
    clockSteps_of_row .p3LatchAVal, clockSteps_of_row .p4AssertPcB, clockSteps_of_row .p5LatchBAddr,
    clockSteps_of_row .p6AssertMarB, clockSteps_of_row .p7LatchBVal, clockSteps_of_row .p8SubStore,
    clockSteps_of_row .p9AssertPcC, clockSteps_of_row .p10LatchC, clockSteps_of_row .p11Branch]
  · have hpc2 : s.pc + 1 + 1 = s.pc + 2 := BitVec.add_assoc ..
    have hpc3 : s.pc + 2 + 1 = s.pc + 3 := BitVec.add_assoc ..
    simp only [clockSteps, rowEffect, State.fetched, State.endPhase, State.memWrite_eq, State.memRead, hpc2, hpc3,
      Memory.read_write_byte]
    rfl
  all_goals simp [rowEffect, hf, hk, decodeMicroState]

/-- Settles O23: the decoded SUBLEQ is the fetched one, whose effect the twelve clock steps have. -/
theorem twelveClocksRefineSubleq : Obligations.TwelveClocksRefineSubleq := by
  intro s a b c hf hk hdecode
  have hfetched : s.fetched = .subleq a b c := by
    rw [decode_instrCells] at hdecode; cases hdecode; rfl
  have hexec : exec (.subleq a b c) s = .next (rowEffect (.subleq a b c) s) := exec_next_iff.2 ⟨hf, rfl⟩
  exact ⟨by rw [clockSteps_twelve hf hk, hexec, hfetched], _, hexec⟩

/-- With A = B the stored difference is 0 (30_encoding R57). -/
theorem rowEffect_subleq_same_mem (a c : Byte) (s : State) :
    (rowEffect (.subleq a a c) s).mem = s.mem.write a.toNat 0 := by
  simp [rowEffect]

/-- With A = B the branch is taken, to the C field where the store does not hit it (30_encoding R57). -/
theorem rowEffect_subleq_same_pc {a : Byte} (c : Byte) {s : State} (h : a ≠ s.pc + 2) :
    (rowEffect (.subleq a a c) s).pc = c := by
  simp only [rowEffect, le_refl, if_true, if_neg h]

/-- Settles O45: the fetched instruction has A = B, so it stores 0 in that cell and branches to the C field. -/
theorem clearAndJumpIdioms : Obligations.ClearAndJumpIdioms := by
  intro s hf hk hAB hC
  have hsteps := clockSteps_twelve hf hk
  rw [State.fetched, ← hAB] at hsteps
  rw [← hAB] at hC
  refine ⟨_, hsteps, ?_, rowEffect_subleq_same_pc _ hC, fun hzero a => ?_⟩
  · rw [State.memRead, rowEffect_subleq_same_mem, Memory.read_write, if_pos rfl]
  · rw [rowEffect_subleq_same_mem, Memory.read_write]
    split
    next ha => rw [ha]; exact hzero.symm
    next => rfl

/-! The assembler (30_encoding R56) -/

/-- Numbers laid out inside the address space are a plain copy of their values modulo 256. -/
theorem layCells_number (labels : List (String × Nat)) {p : Nat} {ns : List Nat} (m : Memory)
    (h : p + ns.length ≤ Config.memDepth) :
    layCells labels p (ns.map .number) m = some (m.load p (ns.map fun n => wrap8 n)) := by
  induction ns generalizing p m with
  | nil => rfl
  | cons n ns ih =>
    rw [List.length_cons] at h
    rw [List.map_cons, layCells, if_pos (by omega), AsmExpr.value, Option.bind_some, ih _ (by omega)]
    rfl

theorem wrap8_natCast_toNat (n : Nat) : (wrap8 (n : Int)).toNat = n % 256 := by
  have := wrap8_toNat n; omega

/-- Settles O49: the statement's cells are laid out as a plain copy over zeroed memory. -/
theorem subleqStatementAssemblesToItsCells : Obligations.SubleqStatementAssemblesToItsCells := by
  intro p a b c hp
  have hread := Memory.read_load [] p (vs := [wrap8 a, wrap8 b, wrap8 c])
  refine ⟨Memory.load [] p [wrap8 a, wrap8 b, wrap8 c], ?_, ?_, ?_, ?_, fun x hx => ?_⟩
  · have hlay := layCells_number [] (p := p) (ns := [a, b, c]) [] hp
    simpa [assemble, labelTable, layLines, afterStatement, AsmStatement.cells, layCells] using hlay
  · simp [hread, wrap8_natCast_toNat]
  · simp [hread, wrap8_natCast_toNat]
  · simp [hread, wrap8_natCast_toNat]
  · rw [hread, if_neg (by simp; omega)]
    rfl

end Sys2Proof.Machine
end

section
/-! PROOFS. The clock-cycle state machine (40_clock_cycle_state_machine): the phases one by one, the cycle of twelve, the
progress of the invariant's states, and the faulted machine that makes none. -/

namespace Sys2Proof.Machine

/-! The clock step runs the decoded row (40_clock_cycle_state_machine R59) -/

/-- The decoder reads the row that `microState` selects from its value in a whole byte (30_encoding R55). -/
theorem decode_zeroExtend (k : MicroState) :
    decode .microState4 [k.zeroExtend 8] = .instr (decodeMicroState k) [] := by
  obtain ⟨hformat, hcode⟩ := encode_decodeMicroState k
  have h := decode_encode_append (decodeMicroState k) []
  rwa [hformat, hcode] at h

/-- Settles O4: the decoded row is the one that the clock step executes. -/
theorem stepRunsTheDecodedRow : Obligations.StepRunsTheDecodedRow := by
  intro s i rest hdecode _
  obtain rfl : decodeMicroState s.microState = i := by
    rw [decode_zeroExtend] at hdecode; cases hdecode; rfl
  exact ⟨step_clockCycle, step_of_call⟩

/-! The phases (40_clock_cycle_state_machine R60 to R71) -/

theorem exec_of_clear (i : Instr) {s : State} (h : s.errorFlag = false) : exec i s = .next (rowEffect i s) :=
  exec_next_iff.2 ⟨h, rfl⟩

/-- Settles O7: the row of an assert phase is `State.endPhase` alone. -/
theorem assertPhasesOnlyAdvance : Obligations.AssertPhasesOnlyAdvance := fun _ hf =>
  ⟨exec_of_clear _ hf, exec_of_clear _ hf, exec_of_clear _ hf, exec_of_clear _ hf, exec_of_clear _ hf⟩

/-- Settles O8: the row of such a phase is the latch and `State.endPhase`. -/
theorem cellLatchPhases : Obligations.CellLatchPhases := fun _ hf =>
  ⟨exec_of_clear _ hf, exec_of_clear _ hf, exec_of_clear _ hf⟩

/-- The increment of `pc` as a number (10_state R13). -/
theorem add_one_toNat (pc : Byte) : (pc + 1).toNat = (pc.toNat + 1) % 256 := BitVec.toNat_add ..

/-- Settles O9: `pc` is incremented as a byte, so modulo 256. -/
theorem phaseThreeLoadsAccA : Obligations.PhaseThreeLoadsAccA := fun s hf =>
  ⟨_, exec_of_clear _ hf, rfl, add_one_toNat s.pc, rfl⟩

/-- The row of phase 8 as one record update (40_clock_cycle_state_machine R68). -/
theorem rowEffect_p8SubStore (s : State) :
    rowEffect .p8SubStore s =
      { s with
        mem := s.mem.write s.addrReg.toNat (s.accB - s.accA)
        out := if s.addrReg = Config.outAddr then s.out ++ [s.accB - s.accA] else s.out
        clockCount := s.clockCount + 1
        microState := 9 } := by
  rw [rowEffect, State.memWrite_eq]; rfl

/-- Settles O11: the store writes the one cell at `addrReg`, and it emits where that cell is 255. -/
theorem phaseEightSubtractsAndStores : Obligations.PhaseEightSubtractsAndStores := by
  intro s hf
  have hexec := exec_of_clear .p8SubStore hf
  rw [rowEffect_p8SubStore] at hexec
  refine ⟨_, s.accB - s.accA, hexec, sub_toNat .., ?_, fun a ha => ?_, ?_, rfl⟩
  · rw [Memory.read_write, if_pos rfl]
  · rw [Memory.read_write, if_neg ha]
  · simp only [eq_outAddr_iff]

/-- Settles O12: the two cases of the unsigned comparison. -/
theorem phaseElevenDecidesAndRetires : Obligations.PhaseElevenDecidesAndRetires := by
  intro s hf
  refine ⟨_, exec_of_clear .p11Branch hf, fun hle => if_pos hle, fun hlt => ?_, rfl⟩
  have hpc : (rowEffect .p11Branch s).pc = s.pc + 1 := if_neg (Nat.not_le.2 hlt)
  rw [hpc, add_one_toNat]

/-! The cycle (40_clock_cycle_state_machine R74) -/

/-- From a legal state at phase k any number n of clock steps runs, and leads to phase (k + n) modulo 12. -/
theorem clockSteps_of_legal {s : State} (n : Nat) (h : s.errorFlag = false ∧ s.microState.toNat < 12) :
    ∃ t, clockSteps n s = .next t ∧ t.microState.toNat = (s.microState.toNat + n) % 12 := by
  induction n generalizing s with
  | zero => exact ⟨s, rfl, (Nat.mod_eq_of_lt h.2).symm⟩
  | succ n ih =>
    obtain ⟨t, hrun, hphase⟩ := ih (legal_afterClock h)
    refine ⟨t, by rw [clockSteps_succ n h.1, rowEffect_decodeMicroState, hrun], ?_⟩
    rw [hphase, afterClock_microState_of_legal h.2]
    omega

/-- Settles O30: the phases count up modulo 12, and they pass 12 only with the last of the steps. -/
theorem cycleReturnsAfterTheRemainingPhases : Obligations.CycleReturnsAfterTheRemainingPhases := by
  intro s hf hk
  refine ⟨?_, fun n hn => ?_⟩
  · obtain ⟨t, hrun, hphase⟩ := clockSteps_of_legal (12 - s.microState.toNat) ⟨hf, hk⟩
    rw [Nat.add_sub_cancel' hk.le, Nat.mod_self] at hphase
    exact ⟨t, hrun, BitVec.eq_of_toNat_eq hphase⟩
  · obtain ⟨t, hrun, hphase⟩ := clockSteps_of_legal n ⟨hf, hk⟩
    rw [Nat.mod_eq_of_lt (by omega)] at hphase
    exact ⟨t, hrun, hphase⟩

/-! Progress (40_clock_cycle_state_machine R75) -/

/-- A host's step operation answers a next state, unless the step itself is refused: a fault is reported (R103, R104). -/
theorem reportStep_answers (s : State) {o : Host.Outcome State Fault Refusal} (h : ∀ r, o ≠ .refused r) :
    ∃ t, reportStep s o = .next t := by
  cases o with
  | next u => exact ⟨_, rfl⟩
  | fault r => exact ⟨_, rfl⟩
  | refused r => exact absurd rfl (h r)

/-- Every host operation answers a next state, from any state (43_host_interface R100). -/
theorem serve_answers (c : HostCall) (s : State) : ∃ t, serve c s = .next t := by
  cases c with
  | stepClockCycle => exact reportStep_answers s (exec_not_refused _ s)
  | stepInstruction => exact reportStep_answers s (runToPhaseZero_not_refused _ s)
  | reset | loadImage | readState | readMemory | writeMemory => exact ⟨_, rfl⟩

/-- From a legal state every turn of the stepper's loop runs (42_instruction_stepper R96). -/
theorem runToPhaseZero_answers {s : State} (n : Nat) (h : s.errorFlag = false ∧ s.microState.toNat < 12) :
    ∃ t, runToPhaseZero n s = .next t := by
  induction n generalizing s with
  | zero => exact ⟨s, rfl⟩
  | succ n ih =>
    rw [runToPhaseZero, clockStep_next_iff.2 ⟨h.1, rfl⟩]
    dsimp only
    split
    · exact ⟨_, rfl⟩
    · exact ih (legal_afterClock h)

/-- Settles O36: a pending call is served from any state, and the driver's step starts from a legal one. -/
theorem invariantStatesAlwaysStep : Obligations.InvariantStatesAlwaysStep := by
  intro s hs
  obtain ⟨-, hf, hk, -⟩ := (inv_iff s).1 hs
  cases hc : s.calls with
  | cons c rest => rw [step_of_call hc]; exact serve_answers c _
  | nil =>
    cases hstep : s.stepping with
    | clockCycle => exact ⟨_, (step_clockCycle hc hstep).trans (clockStep_of_clear hf)⟩
    | instruction => rw [step_instruction hc hstep]; exact runToPhaseZero_answers _ ⟨hf, hk⟩

/-! The faulted machine (40_clock_cycle_state_machine R73, decision D5) -/

theorem stepInstruction_of_set {s : State} (h : s.errorFlag = true) :
    stepInstruction s = .fault .steppedWhileFaulted := by
  rw [stepInstruction, Config.numPhases, runToPhaseZero, clockStep_of_set h]

/-- With the flag set and no call pending the machine stops. -/
theorem step_of_set_of_no_call {s : State} (hf : s.errorFlag = true) (hc : s.calls = []) :
    step s = .fault .steppedWhileFaulted := by
  cases hs : s.stepping with
  | clockCycle => rw [step_clockCycle hc hs, clockStep_of_set hf]
  | instruction => rw [step_instruction hc hs, stepInstruction_of_set hf]

/-- With the flag set a host operation other than `reset()` leaves every register and counter as it was: it can change
memory and the output, and it replies. -/
theorem serve_of_set {s : State} {c : HostCall} (hf : s.errorFlag = true) (hc : c ≠ .reset) :
    ∃ m o r, serve c s = .next { s with mem := m, out := o, replies := r } := by
  cases c with
  | reset => exact absurd rfl hc
  | stepClockCycle => rw [serve, clockStep_of_set hf]; exact ⟨_, _, _, rfl⟩
  | stepInstruction => rw [serve, stepInstruction_of_set hf]; exact ⟨_, _, _, rfl⟩
  | writeMemory x v => rw [serve, State.memWrite_eq]; split <;> exact ⟨_, _, _, rfl⟩
  | loadImage | readState | readMemory => exact ⟨_, _, _, rfl⟩

theorem run_of_fault {s : State} {r : Fault} (n : Nat) (h : step s = .fault r) :
    Host.Core.run core (n + 1) s = .fault r := by
  simp only [Host.Core.run]; rw [show core.step s = step s from rfl, h]

/-- With the flag set the machine serves the first `n` of the pending calls, and a longer run goes on from there. -/
theorem run_of_set {s : State} {n : Nat} (hf : s.errorFlag = true) (hr : HostCall.reset ∉ s.calls)
    (hn : n ≤ s.calls.length) :
    ∃ m o r, ∀ k : Nat, Host.Core.run core (k + n) s =
      Host.Core.run core k { s with mem := m, out := o, calls := s.calls.drop n, replies := r } := by
  induction n generalizing s with
  | zero => exact ⟨s.mem, s.out, s.replies, fun _ => rfl⟩
  | succ n ih =>
    cases hc : s.calls with
    | nil => rw [hc] at hn; exact absurd hn (Nat.not_succ_le_zero n)
    | cons c rest =>
      rw [hc] at hn hr
      obtain ⟨hne, hrest⟩ := not_or.1 (mt List.mem_cons.2 hr)
      obtain ⟨m, o, r, hserve⟩ := serve_of_set (s := { s with calls := rest }) hf (Ne.symm hne)
      obtain ⟨m', o', r', hrun⟩ := ih (s := { s with mem := m, out := o, calls := rest, replies := r }) hf hrest
        (Nat.le_of_succ_le_succ hn)
      exact ⟨m', o', r', fun k => (run_succ (k + n) ((step_of_call hc).trans hserve)).trans (hrun k)⟩

/-- Settles O50: the run serves the calls with the flag set, so in no state that is an end, and where none is left the
next action is the fault. -/
theorem faultedStateIsNeverFinal : Obligations.FaultedStateIsNeverFinal := by
  intro s n hf hr
  refine ⟨fun hn => ?_, fun hn => ?_⟩
  · obtain ⟨m, o, r, hrun⟩ := run_of_set hf hr hn
    have hserved := hrun 0
    rw [Nat.zero_add] at hserved
    exact ⟨_, hserved, fun _ _ => not_endOfRun_of_fault hf, rfl⟩
  · obtain ⟨m, o, r, hrun⟩ := run_of_set hf hr le_rfl
    obtain ⟨k, rfl⟩ := Nat.exists_eq_add_of_lt hn
    rw [show s.calls.length + k + 1 = k + 1 + s.calls.length by omega, hrun (k + 1)]
    exact run_of_fault k (step_of_set_of_no_call hf (List.drop_length ..))

end Sys2Proof.Machine
end

section
/-! PROOFS. The instruction SUBLEQ (41_subleq_instruction): the subtract unit, the effect of one SUBLEQ item by item,
what twelve clock steps make of it where a store hits the instruction's own cells or the output cell, and the agreement
of two runs. -/

namespace Sys2Proof.Machine

/-! The subtract unit and the branch condition (41_subleq_instruction R81, R82) -/

theorem taken_iff (b a : Byte) : taken b a = true ↔ b.toNat ≤ a.toNat := by
  rw [taken_eq, decide_eq_true_iff]

/-- The subtract unit adds the complement and 1 (41_subleq_instruction R81). -/
theorem sub_eq_add_xor_add_one (b a : Byte) : b - a = b + (a ^^^ 0xFF) + 1 := by
  rw [show (0xFF : Byte) = BitVec.allOnes 8 from rfl, BitVec.xor_allOnes, BitVec.add_assoc, BitVec.sub_eq_add_neg,
    BitVec.neg_eq_not_add]; rfl

theorem sub_eq_zero_iff_toNat_eq (b a : Byte) : b - a = 0 ↔ b.toNat = a.toNat := by
  rw [sub_eq_zero, BitVec.toNat_inj]

/-- The 9-bit difference as a number: its top bit is the borrow. -/
theorem zeroExtend_sub_toNat (b a : Byte) :
    (b.zeroExtend 9 - a.zeroExtend 9).toNat = (b.toNat + 512 - a.toNat) % 512 := by
  have ha := a.isLt
  have hb := b.isLt
  rw [BitVec.toNat_sub, BitVec.toNat_setWidth, BitVec.toNat_setWidth]
  omega

/-- The 9-bit difference is negative exactly where there is a borrow. -/
theorem zeroExtend_sub_msb_iff (b a : Byte) :
    (b.zeroExtend 9 - a.zeroExtend 9).msb = true ↔ b.toNat < a.toNat := by
  have ha := a.isLt
  have hb := b.isLt
  rw [BitVec.msb_eq_decide, decide_eq_true_iff, zeroExtend_sub_toNat]
  omega

theorem zeroExtend_sub_eq_zero_iff (b a : Byte) :
    b.zeroExtend 9 - a.zeroExtend 9 = 0 ↔ b.toNat = a.toNat := by
  have ha := a.isLt
  have hb := b.isLt
  rw [← BitVec.toNat_inj, zeroExtend_sub_toNat]
  change _ = 0 ↔ _
  omega

/-- Settles O20: every form says that b is at most a as a number; 128 - 0 refutes the reading by the sign of the 8-bit
result, 0 - 1 the reading by its being zero. -/
theorem subtractUnitAndBranchCondition : Obligations.SubtractUnitAndBranchCondition := by
  refine ⟨fun b a => ?_, fun h => absurd (h 128 0) (by decide), fun h => absurd (h 0 1) (by decide)⟩
  rw [taken_iff, subtract_eq, sub_eq_zero_iff_toNat_eq, zeroExtend_sub_msb_iff, zeroExtend_sub_eq_zero_iff]
  exact ⟨sub_toNat b a, sub_eq_add_xor_add_one b a, by omega, Iff.rfl, Nat.le_iff_lt_or_eq, Nat.le_iff_lt_or_eq⟩

/-! The effect of one SUBLEQ (41_subleq_instruction R80) -/

section
variable (a b c : Byte) (s : State)

/-- SUBLEQ changes the items of 41_subleq_instruction R80 and no other. -/
theorem rowEffect_subleq_frame :
    rowEffect (.subleq a b c) s =
      { s with
        mem := (rowEffect (.subleq a b c) s).mem
        out := (rowEffect (.subleq a b c) s).out
        accA := s.memRead a
        accB := s.memRead b
        addrReg := (rowEffect (.subleq a b c) s).addrReg
        pc := (rowEffect (.subleq a b c) s).pc
        microState := 0
        instructionCount := s.instructionCount + 1
        clockCount := s.clockCount + 12 } := by
  simp only [rowEffect, State.memWrite_eq]

theorem rowEffect_subleq_mem :
    (rowEffect (.subleq a b c) s).mem = s.mem.write b.toNat (s.memRead b - s.memRead a) := State.memWrite_mem ..

/-- The cell B holds the result and every other cell what it held. -/
theorem rowEffect_subleq_memRead (x : Byte) :
    (rowEffect (.subleq a b c) s).memRead x = if x = b then s.memRead b - s.memRead a else s.memRead x :=
  State.memRead_memWrite ..

/-- The stored byte is emitted exactly where B is the output cell (41_subleq_instruction R87). -/
theorem rowEffect_subleq_out :
    (rowEffect (.subleq a b c) s).out = if b = 255 then s.out ++ [s.memRead b - s.memRead a] else s.out :=
  State.memWrite_out ..

/-- The branch target: the stored result where the store hits the own C cell, else the C field
(41_subleq_instruction R88). -/
theorem rowEffect_subleq_addrReg :
    (rowEffect (.subleq a b c) s).addrReg = if b = s.pc + 2 then s.memRead b - s.memRead a else c := rfl

/-- The branch compares the operands read and goes to `addrReg` (41_subleq_instruction R82, R84). -/
theorem rowEffect_subleq_pc :
    (rowEffect (.subleq a b c) s).pc =
      if (s.memRead b).toNat ≤ (s.memRead a).toNat then (rowEffect (.subleq a b c) s).addrReg else s.pc + 3 := rfl

end

theorem eq_add_two_iff (b p : Byte) : b = p + 2 ↔ b.toNat = (p.toNat + 2) % 256 := by
  rw [← BitVec.toNat_inj, BitVec.toNat_add]; rfl

theorem add_three_toNat (p : Byte) : (p + 3).toNat = (p.toNat + 3) % 256 := BitVec.toNat_add ..

/-- Settles O21: the clauses are the items of the effect, with the bytes read as numbers. -/
theorem subleqCompletesWithItsEffect : Obligations.SubleqCompletesWithItsEffect := by
  intro a b c s hf
  refine ⟨_, s.memRead b - s.memRead a, exec_of_clear _ hf, sub_toNat .., ?_, fun x hx => ?_, ?_, rfl, rfl,
    fun hown => if_pos ((eq_add_two_iff b s.pc).2 hown), fun hother => if_neg (mt (eq_add_two_iff b s.pc).1 hother),
    fun hle => if_pos hle, fun hlt => ?_, rowEffect_subleq_frame a b c s⟩
  · rw [rowEffect_subleq_mem, Memory.read_write, if_pos rfl]
  · rw [rowEffect_subleq_mem, Memory.read_write, if_neg hx]
  · exact (rowEffect_subleq_out a b c s).trans (if_congr (eq_outAddr_iff b) rfl rfl)
  · have hpc : (rowEffect (.subleq a b c) s).pc = s.pc + 3 := if_neg (Nat.not_le.2 hlt)
    rw [hpc, add_three_toNat]

/-- Settles O22: O21 for the fetched instruction, whose target is the C cell as it reads after the store: the result
where the store hit that cell, and the C field where it did not (20_memory R42). -/
theorem twelveClocksHaveTheInstructionEffect : Obligations.TwelveClocksHaveTheInstructionEffect := by
  intro s hf hk
  obtain ⟨t, r, hexec, hr, hstored, hothers, hout, haccA, haccB, hown, hother, htaken, hnot, hframe⟩ :=
    subleqCompletesWithItsEffect (s.memRead s.pc) (s.memRead (s.pc + 1)) (s.memRead (s.pc + 2)) s hf
  have hB : s.memRead (s.pc + 1) = s.mem.read ((s.pc.toNat + 1) % 256) := by rw [State.memRead, add_one_toNat]
  have hC : s.memRead (s.pc + 2) = s.mem.read ((s.pc.toNat + 2) % 256) := by
    rw [State.memRead, (eq_add_two_iff _ _).1 rfl]
  have htarget : t.addrReg = t.mem.read ((s.pc.toNat + 2) % 256) := by
    by_cases h : (s.memRead (s.pc + 1)).toNat = (s.pc.toNat + 2) % 256
    · rw [hown h, ← h, hstored]
    · rw [hother h, hothers _ (Ne.symm h), hC]
  have hrun : clockSteps 12 s = exec s.fetched s := by rw [clockSteps_twelve hf hk, exec_of_clear _ hf]
  rw [haccA, haccB] at htaken hnot hframe
  exact ⟨t, _, _, _, _, r, hrun.trans hexec, rfl, rfl, hB, rfl, hr, hstored, hothers, hout, haccA, haccB, htarget,
    htaken, hnot, hframe⟩

/-! Stores into the instruction's own cells and into the output cell (41_subleq_instruction R87 to R89) -/

/-- Settles O24: the store hits the own C cell, so the target is the stored result. -/
theorem storeIntoOwnCCellMovesTheTarget : Obligations.StoreIntoOwnCCellMovesTheTarget := by
  intro s hf hk hown
  have hrun := clockSteps_twelve hf hk
  rw [State.fetched, hown] at hrun
  refine ⟨_, hrun, ?_, if_pos rfl, ?_⟩
  · rw [rowEffect_subleq_memRead, if_pos rfl]
  · rw [rowEffect_subleq_pc, rowEffect_subleq_addrReg, if_pos rfl]

/-- Settles O25: the own A and B cells are not the own C cell, so the target is the C field as fetched. -/
theorem storeIntoOwnAOrBCellIsSeenLater : Obligations.StoreIntoOwnAOrBCellIsSeenLater := by
  intro s hf hk A B hown
  have hne : B ≠ s.pc + 2 := by
    rcases hown with h | h <;> rw [h] <;> bv_omega
  have hreg : (rowEffect s.fetched s).addrReg = s.memRead (s.pc + 2) := if_neg hne
  have hcell (x : Byte) (hx : B = x) : s.memRead B = s.memRead x ∧
      (rowEffect s.fetched s).memRead x = s.memRead x - s.memRead A := by
    rw [← hx]; exact ⟨rfl, (rowEffect_subleq_memRead ..).trans (if_pos rfl)⟩
  refine ⟨_, clockSteps_twelve hf hk, rfl, rfl, hcell s.pc, hcell (s.pc + 1), hreg, ?_⟩
  rw [← hreg]; exact rowEffect_subleq_pc ..

/-- Settles O26: the store emits exactly where it hits cell 255; with A = B = 255 the difference is 0. -/
theorem outputCellAsOperand : Obligations.OutputCellAsOperand := by
  intro s hf hk A B
  have hout : (rowEffect s.fetched s).out = if B = 255 then s.out ++ [s.memRead B - s.memRead A] else s.out :=
    rowEffect_subleq_out ..
  have hcell : (rowEffect s.fetched s).memRead 255 = if 255 = B then s.memRead B - s.memRead A else s.memRead 255 :=
    rowEffect_subleq_memRead ..
  refine ⟨_, clockSteps_twelve hf hk, fun hB => ?_, fun hB => ?_, fun hA => congrArg s.memRead hA, fun hA hB => ?_⟩
  · rw [hB, if_pos rfl] at hout hcell
    exact ⟨hout, hcell⟩
  · rw [if_neg hB] at hout
    rw [if_neg (Ne.symm hB)] at hcell
    exact ⟨hout, hcell⟩
  · rw [hA, hB, if_pos rfl, sub_self] at hout hcell
    have hle : (s.memRead B).toNat ≤ (s.memRead A).toNat := by rw [hA, hB]
    exact ⟨hout, hcell, if_pos hle⟩

/-! The instruction stepper at a phase-0 boundary (42_instruction_stepper R95, R96) -/

/-- With turns enough, the stepper's loop from a legal phase is the clock steps left of the instruction. -/
theorem runToPhaseZero_eq_clockSteps {s : State} {m n : Nat} (h : s.errorFlag = false ∧ s.microState.toNat < 12)
    (hm : s.microState.toNat + m = 12) (hn : m ≤ n) : runToPhaseZero n s = clockSteps m s := by
  induction n generalizing s m with
  | zero => exact absurd h.2 (by omega)
  | succ n ih =>
    obtain ⟨m, rfl⟩ : ∃ k, m = k + 1 := Nat.exists_eq_add_one.2 (by omega)
    have hflag : s.afterClock.errorFlag = false := (legal_afterClock h).1
    have hphase := afterClock_microState_of_legal h.2
    rw [runToPhaseZero, clockSteps, clockStep_next_iff.2 ⟨h.1, rfl⟩]
    dsimp only
    rw [hflag, Bool.false_or]
    rcases Nat.eq_zero_or_pos m with rfl | hpos
    · have h0 : s.afterClock.microState = 0 := BitVec.eq_of_toNat_eq (hphase.trans (by rw [hm]; rfl))
      rw [if_pos (decide_eq_true h0)]
      rfl
    · have hk : s.afterClock.microState.toNat = s.microState.toNat + 1 := hphase.trans (Nat.mod_eq_of_lt (by omega))
      have h0 : s.afterClock.microState ≠ 0 := fun h0 => by rw [h0] at hk; exact absurd hk (by simp)
      rw [if_neg (by simpa using h0)]
      exact ih (legal_afterClock h) (by omega) (by omega)

/-- Between two instructions of a driver that steps by instruction, with no host call pending and no fault. -/
def State.AtBoundary (s : State) : Prop :=
  s.errorFlag = false ∧ s.microState = 0 ∧ s.calls = [] ∧ s.stepping = .instruction

/-- At a boundary the step is the fetched instruction. -/
theorem step_of_boundary {s : State} (h : s.AtBoundary) : step s = .next (rowEffect s.fetched s) := by
  obtain ⟨hf, hk, hc, hs⟩ := h
  have hphase : s.microState.toNat = 0 := congrArg BitVec.toNat hk
  rw [step_instruction hc hs, stepInstruction, ← clockSteps_twelve hf hk]
  exact runToPhaseZero_eq_clockSteps ⟨hf, by omega⟩ (by omega) le_rfl

/-- The fetched instruction ends at a boundary again. -/
theorem atBoundary_rowEffect_fetched {s : State} (h : s.AtBoundary) : (rowEffect s.fetched s).AtBoundary := by
  obtain ⟨hf, -, hc, hs⟩ := h
  rw [State.fetched, rowEffect_subleq_frame]
  exact ⟨hf, rfl, hc, hs⟩

/-! Two runs that agree on memory and `pc` (41_subleq_instruction R91) -/

/-- What a next instruction depends on: memory and `pc`. -/
def State.SameProgram (s s' : State) : Prop := s.mem = s'.mem ∧ s.pc = s'.pc

/-- The three registers that carry no information from one instruction to the next. -/
def State.SameRegisters (s s' : State) : Prop := s.accA = s'.accA ∧ s.accB = s'.accB ∧ s.addrReg = s'.addrReg

/-- What the fetched instruction emits. -/
def State.emittedNext (s : State) : List Byte :=
  if s.memRead (s.pc + 1) = 255 then [s.memRead (s.memRead (s.pc + 1)) - s.memRead (s.memRead s.pc)] else []

theorem rowEffect_fetched_out (s : State) : (rowEffect s.fetched s).out = s.out ++ s.emittedNext := by
  rw [State.fetched, rowEffect_subleq_out, State.emittedNext]
  split
  · rfl
  · exact (List.append_nil _).symm

theorem State.SameProgram.memRead_eq {s s' : State} (h : s.SameProgram s') : s.memRead = s'.memRead :=
  funext fun a => congrArg (Memory.read · a.toNat) h.1

theorem State.SameProgram.fetched_eq {s s' : State} (h : s.SameProgram s') : s.fetched = s'.fetched := by
  rw [State.fetched, State.fetched, h.memRead_eq, h.2]

theorem State.SameProgram.emittedNext_eq {s s' : State} (h : s.SameProgram s') : s.emittedNext = s'.emittedNext := by
  rw [State.emittedNext, State.emittedNext, h.memRead_eq, h.2]

/-- One SUBLEQ has the same effect on memory, `pc` and the registers in two states with the same program. -/
theorem State.SameProgram.rowEffect_subleq {s s' : State} (h : s.SameProgram s') (a b c : Byte) :
    (rowEffect (.subleq a b c) s).SameProgram (rowEffect (.subleq a b c) s') ∧
      (rowEffect (.subleq a b c) s).SameRegisters (rowEffect (.subleq a b c) s') := by
  obtain ⟨hmem, hpc⟩ := h
  have hread : s.memRead = s'.memRead := State.SameProgram.memRead_eq ⟨hmem, hpc⟩
  have htarget : (rowEffect (.subleq a b c) s).addrReg = (rowEffect (.subleq a b c) s').addrReg := by
    rw [rowEffect_subleq_addrReg, rowEffect_subleq_addrReg, hread, hpc]
  refine ⟨⟨?_, ?_⟩, congrFun hread a, congrFun hread b, htarget⟩
  · rw [rowEffect_subleq_mem, rowEffect_subleq_mem, hmem, hread]
  · rw [rowEffect_subleq_pc, rowEffect_subleq_pc, htarget, hread, hpc]

/-- Two runs from boundaries with the same program stay in step and emit the same bytes; their registers agree where they
agreed at the start or an instruction has run. -/
theorem run_of_sameProgram {s s' : State} (n : Nat) (hs : s.AtBoundary) (hs' : s'.AtBoundary) (h : s.SameProgram s') :
    ∃ t t' emitted, Host.Core.run core n s = .next t ∧ Host.Core.run core n s' = .next t' ∧ t.SameProgram t' ∧
      t.out = s.out ++ emitted ∧ t'.out = s'.out ++ emitted ∧ (s.SameRegisters s' ∨ 0 < n → t.SameRegisters t') := by
  induction n generalizing s s' with
  | zero =>
    exact ⟨s, s', [], rfl, rfl, h, (List.append_nil _).symm, (List.append_nil _).symm,
      fun hregs => hregs.resolve_right (Nat.lt_irrefl 0)⟩
  | succ n ih =>
    obtain ⟨hprogram, hregisters⟩ : (rowEffect s.fetched s).SameProgram (rowEffect s'.fetched s') ∧
        (rowEffect s.fetched s).SameRegisters (rowEffect s'.fetched s') := by
      rw [← h.fetched_eq]; exact h.rowEffect_subleq ..
    obtain ⟨t, t', emitted, hrun, hrun', hsame, hout, hout', hregs⟩ :=
      ih (atBoundary_rowEffect_fetched hs) (atBoundary_rowEffect_fetched hs') hprogram
    refine ⟨t, t', s.emittedNext ++ emitted, (run_succ n (step_of_boundary hs)).trans hrun,
      (run_succ n (step_of_boundary hs')).trans hrun', hsame, ?_, ?_, fun _ => hregs (.inl hregisters)⟩
    · rw [hout, rowEffect_fetched_out, List.append_assoc]
    · rw [hout', rowEffect_fetched_out, h.emittedNext_eq, List.append_assoc]

/-- Settles O33: two boundaries with the same program run in step. -/
theorem behaviourDependsOnMemoryAndPcAlone : Obligations.BehaviourDependsOnMemoryAndPcAlone := by
  intro s s' n hf hf' hk hk' hc hc' hs hs' hmem hpc
  obtain ⟨t, t', emitted, hrun, hrun', ⟨hmem', hpc'⟩, hout, hout', hregs⟩ :=
    run_of_sameProgram n ⟨hf, hk, hc, hs⟩ ⟨hf', hk', hc', hs'⟩ ⟨hmem, hpc⟩
  exact ⟨t, t', emitted, hrun, hrun', hmem', hpc', hout, hout', fun hn => hregs (.inr hn)⟩

end Sys2Proof.Machine
end

section
/-! PROOFS. The instruction stepper (42_instruction_stepper): the clock steps that are left of an instruction as an
iterate of `State.afterClock`, and the stepper from a legal, a phase-0, a faulted and an illegal state. -/

namespace Sys2Proof.Machine

/-! The remaining clock steps of an instruction (42_instruction_stepper R96) -/

/-- Clock steps from a legal state are the iterate of the one clock step. -/
theorem clockSteps_eq_iterate {s : State} (n : Nat) (h : s.errorFlag = false ∧ s.microState.toNat < 12) :
    clockSteps n s = .next (State.afterClock^[n] s) := by
  induction n generalizing s with
  | zero => rfl
  | succ n ih =>
    rw [clockSteps_succ n h.1, rowEffect_decodeMicroState, ih (legal_afterClock h), Function.iterate_succ_apply]

/-- What n clock steps do to the phase, the flag and the counters: an instruction retires each time the phases pass 11
(40_clock_cycle_state_machine R71, R74). -/
theorem iterate_afterClock_of_legal {s : State} (n : Nat) (h : s.errorFlag = false ∧ s.microState.toNat < 12) :
    (State.afterClock^[n] s).microState.toNat = (s.microState.toNat + n) % 12 ∧
      (State.afterClock^[n] s).errorFlag = false ∧
      (State.afterClock^[n] s).instructionCount = s.instructionCount + (s.microState.toNat + n) / 12 ∧
      (State.afterClock^[n] s).clockCount = s.clockCount + n := by
  induction n generalizing s with
  | zero =>
    have hk := h.2
    exact ⟨(Nat.mod_eq_of_lt hk).symm, h.1, by simp only [Function.iterate_zero, id]; omega, rfl⟩
  | succ n ih =>
    obtain ⟨hphase, hflag, hretired, hclocks⟩ := ih (legal_afterClock h)
    have hk := h.2
    rw [afterClock_microState_of_legal hk] at hphase
    rw [afterClock_instructionCount, afterClock_microState_of_legal hk] at hretired
    rw [afterClock_clockCount_of_legal hk] at hclocks
    rw [Function.iterate_succ_apply, hphase, hretired, hclocks]
    refine ⟨by omega, hflag, ?_, by omega⟩
    split <;> omega

/-- Clock steps neither read nor write the pending calls and the replies (log entry 1). -/
theorem iterate_afterClock_host (n : Nat) (s : State) (cs : List HostCall) (rs : List HostReply) :
    State.afterClock^[n] { s with calls := cs, replies := rs } =
      { State.afterClock^[n] s with calls := cs, replies := rs } := by
  induction n generalizing s with
  | zero => rfl
  | succ n ih => exact ih s.afterClock

/-- The stepper's loop performs the 12 - k clock steps that are left from phase k (42_instruction_stepper R96). -/
theorem stepInstruction_eq_clockSteps {s : State} (h : s.errorFlag = false ∧ s.microState.toNat < 12) :
    stepInstruction s = clockSteps (12 - s.microState.toNat) s :=
  runToPhaseZero_eq_clockSteps h (Nat.add_sub_cancel' h.2.le) (Nat.sub_le ..)

/-! The host's `stepInstruction()` (43_host_interface R104) -/

/-- A host's instruction step reports the outcome of the stepper. -/
theorem step_of_stepInstruction {s : State} {rest : List HostCall} {o : Host.Outcome State Fault Refusal}
    (hc : s.calls = .stepInstruction :: rest) (ho : stepInstruction { s with calls := rest } = o) :
    step s = reportStep { s with calls := rest } o := by
  rw [step_of_call hc, serve, ho]

/-- A host's instruction step that raises no fault is reported as `stepped`. -/
theorem step_of_stepInstruction_stepped {s t : State} {rest : List HostCall}
    (hc : s.calls = .stepInstruction :: rest) (ht : stepInstruction { s with calls := rest } = .next t)
    (hf : t.errorFlag = false) : step s = .next (t.answer .stepped) := by
  rw [step_of_stepInstruction hc ht, reportStep_next, hf]
  rfl

/-- Settles O31: the iterate of 12 - k clock steps brings the phase count to 12, so to phase 0 with one retirement, and
the host's fields go along unchanged. -/
theorem stepperRunsTheRemainingPhases : Obligations.StepperRunsTheRemainingPhases := by
  intro s rest hf hk
  have hlegal : s.errorFlag = false ∧ s.microState.toNat < 12 := ⟨hf, hk⟩
  obtain ⟨hphase, hflag, hretired, hclocks⟩ := iterate_afterClock_of_legal (12 - s.microState.toNat) hlegal
  rw [Nat.add_sub_cancel' hk.le] at hphase hretired
  have hclock := clockSteps_eq_iterate (12 - s.microState.toNat) hlegal
  have hstep := (stepInstruction_eq_clockSteps hlegal).trans hclock
  refine ⟨_, hstep, hclock, BitVec.eq_of_toNat_eq hphase, hflag, hretired, hclocks,
    fun hc hs => (step_instruction hc hs).trans hstep, fun hc => ?_⟩
  have hhost : stepInstruction { s with calls := rest } =
      .next { State.afterClock^[12 - s.microState.toNat] s with calls := rest, replies := s.replies } := by
    rw [stepInstruction_eq_clockSteps (s := { s with calls := rest }) hlegal,
      clockSteps_eq_iterate (s := { s with calls := rest }) _ hlegal, ← iterate_afterClock_host]
  exact step_of_stepInstruction_stepped hc hhost hflag

/-! The stepper at phase 0 (42_instruction_stepper R95, R96) -/

/-- At phase 0 the stepper is the execution of the fetched SUBLEQ: both are the twelve clock steps. -/
theorem stepInstruction_of_phaseZero {s : State} (hf : s.errorFlag = false) (hk : s.microState = 0) :
    stepInstruction s = exec s.fetched s := by
  have hphase : s.microState.toNat = 0 := congrArg BitVec.toNat hk
  rw [stepInstruction_eq_clockSteps ⟨hf, by omega⟩, hphase, exec_of_clear _ hf]
  exact clockSteps_twelve hf hk

/-- Settles O5: the decoded SUBLEQ is the fetched one, and taking the host's call off moves no cell. -/
theorem stepRunsTheDecodedSubleq : Obligations.StepRunsTheDecodedSubleq := by
  intro s i rest hf hk hdecode _
  obtain rfl : s.fetched = i := by
    rw [decode_instrCells] at hdecode; cases hdecode; rfl
  refine ⟨fun hc hs => (step_instruction hc hs).trans (stepInstruction_of_phaseZero hf hk), fun hc => ?_⟩
  have hexec : exec s.fetched { s with calls := rest } = .next (rowEffect s.fetched { s with calls := rest }) :=
    exec_of_clear _ hf
  have hflag : (rowEffect s.fetched { s with calls := rest }).errorFlag = false := by
    rw [State.fetched, rowEffect_subleq_frame]; exact hf
  have hstep := stepInstruction_of_phaseZero (s := { s with calls := rest }) hf hk
  exact ⟨_, hexec, step_of_stepInstruction_stepped hc (hstep.trans hexec) hflag⟩

/-! The stepper on a faulted or illegal state (42_instruction_stepper R97, decision D8) -/

/-- On an illegal micro-state the first clock step raises the flag, and the flag ends the loop. -/
theorem stepInstruction_of_illegal {s : State} (hf : s.errorFlag = false) (hk : 12 ≤ s.microState.toNat) :
    stepInstruction s = .next s.raiseInvariantViolation := by
  rw [stepInstruction, Config.numPhases, runToPhaseZero, clockStep_of_clear hf, rowEffect_of_illegal hk]
  rfl

/-- Settles O15: the faulted and the illegal state, each under the host's call and under the driver's stepping. -/
theorem stepperReturnsTheFault : Obligations.StepperReturnsTheFault := by
  intro s rest
  refine ⟨fun hc => ⟨fun hf => ?_, fun hf hk => ?_⟩, fun hc hs => ⟨fun hf => ?_, fun hf hk => ?_⟩⟩
  · exact step_of_stepInstruction hc (stepInstruction_of_set hf)
  · exact step_of_stepInstruction hc (stepInstruction_of_illegal (s := { s with calls := rest }) hf hk)
  · exact step_of_set_of_no_call hf hc
  · exact (step_instruction hc hs).trans (stepInstruction_of_illegal hf hk)

end Sys2Proof.Machine
end

section
/-! PROOFS. The host's own operations on memory and registers (43_host_interface): loading an image, patching a cell,
reading a field or a cell, and the addresses that are turned away. -/

namespace Sys2Proof.Machine

/-! Loading an image (43_host_interface R102) -/

/-- The action of a host load. -/
theorem step_of_loadImage {s : State} {bytes : List Byte} {rest : List HostCall}
    (hc : s.calls = .loadImage bytes :: rest) :
    step s = .next (({ s with calls := rest }.loadImage bytes).answer (loadReport bytes)) := step_of_call hc

/-- Below the image's end a cell reads as the image, from there on as before; the end is at 256 at most. -/
theorem loadImage_read (s : State) (bytes : List Byte) (a : Nat) :
    (s.loadImage bytes).mem.read a = if a < min bytes.length 256 then bytes.getD a 0 else s.mem.read a := by
  rw [State.loadImage_mem, Memory.read_load, Nat.zero_add, List.length_take, Config.memDepth, Nat.min_comm, Nat.sub_zero]
  split
  next h =>
    have h256 : a < 256 := (lt_min_iff.1 h.2).2
    rw [if_pos h.2, List.getD_eq_getElem?_getD, List.getElem?_take_of_lt h256, ← List.getD_eq_getElem?_getD]
  next h => rw [if_neg fun hlt => h ⟨a.zero_le, hlt⟩]

/-- Settles O39: the loaded memory is read on both sides of the image's end, and the load writes memory only. -/
theorem loadImageCopiesAPrefix : Obligations.LoadImageCopiesAPrefix := by
  intro s bytes rest hc
  refine ⟨_, step_of_loadImage hc, fun a ha => ?_, fun a ha => ?_, rfl⟩
  · have hlen : a < bytes.length := (lt_min_iff.1 ha).1
    rw [State.answer_mem, loadImage_read, if_pos ha, List.getD_eq_getElem _ _ hlen, List.getElem?_eq_getElem hlen]
  · rw [State.answer_mem, loadImage_read, if_neg (Nat.not_lt.2 ha)]

/-! Writing a cell (43_host_interface R107) -/

/-- A host address in range is some byte's value. -/
theorem exists_byte_of_range {x : Int} (h0 : 0 ≤ x) (h255 : x ≤ 255) : ∃ a : Byte, x = a.toNat :=
  ⟨wrap8 x, by rw [wrap8_toNat]; omega⟩

/-- After a store its cell reads as the stored byte, every other cell as before. -/
theorem memWrite_read (s : State) (a v : Byte) (b : Nat) :
    (s.memWrite a v).mem.read b = if b = a.toNat then v else s.mem.read b := by
  rw [State.memWrite_mem, Memory.read_write]

/-- Settles O40: an address in range is a byte, and there the host's write is the CPU's store. -/
theorem hostWriteStoresAndEmits : Obligations.HostWriteStoresAndEmits := by
  intro s x v rest hc h0 h255
  obtain ⟨a, rfl⟩ := exists_byte_of_range h0 h255
  rw [Int.toNat_natCast]
  refine ⟨_, step_of_writeMemory hc, ?_, fun b hb => ?_, ?_, ?_⟩
  · rw [State.answer_mem, memWrite_read, if_pos rfl, wrap8_toNat]
  · rw [State.answer_mem, memWrite_read, if_neg hb]
  · rw [State.answer_out, State.memWrite_out, State.answer_mem, memWrite_read]
    by_cases h : a.toNat = 255
    · rw [if_pos ((eq_outAddr_iff a).2 h), if_pos (by omega), if_pos h.symm]
    · rw [if_neg (mt (eq_outAddr_iff a).1 h), if_neg (by omega)]
  · rw [State.memWrite_eq]; rfl

/-! Reading (43_host_interface R105, R106) -/

/-- The action of reading a CPU field. -/
theorem step_of_readState {s : State} {f : StateField} {rest : List HostCall} (hc : s.calls = .readState f :: rest) :
    step s = .next ({ s with calls := rest }.answer (.value (s.readField f))) := by
  rw [step_of_call hc]; cases f <;> rfl

/-- The action of reading a cell in range. -/
theorem step_of_readMemory {s : State} {a : Nat} {rest : List HostCall} (ha : a < 256)
    (hc : s.calls = .readMemory a :: rest) :
    step s = .next ({ s with calls := rest }.answer (.value (s.mem.read a).toNat)) := by
  rw [step_of_call hc, serve, if_pos ((hostAddrOk_iff a).2 (by omega)), State.memRead, wrap8_natCast_toNat,
    Nat.mod_eq_of_lt ha]

/-- The flag reads as 1 when it is set and as 0 when it is not. -/
theorem readField_errorFlag (s : State) : s.readField .errorFlag = if s.errorFlag = true then 1 else 0 :=
  Bool.cond_eq_ite s.errorFlag 1 0

/-- Settles O41: each field and each cell goes into the reply, and the reply is all that is added. -/
theorem hostReadsChangeNothing : Obligations.HostReadsChangeNothing := by
  intro s rest
  refine ⟨step_of_readState, step_of_readState, step_of_readState, step_of_readState, step_of_readState, fun hc => ?_,
    step_of_readState, step_of_readState, fun a => step_of_readMemory⟩
  rw [← readField_errorFlag]; exact step_of_readState hc

/-! An address outside 0 to 255 (43_host_interface R108) -/

theorem hostAddrOk_ne_true {x : Int} (h : x < 0 ∨ 255 < x) : ¬hostAddrOk x = true := by
  rw [hostAddrOk_iff]; omega

/-- Settles O42: the address check fails, for the read as for the write. -/
theorem outOfRangeHostAddressIsRejected : Obligations.OutOfRangeHostAddressIsRejected := by
  intro s x v rest hx
  have hbad := hostAddrOk_ne_true hx
  refine ⟨fun hc => ?_, fun hc => ?_⟩
  · rw [step_of_call hc, serve, if_neg hbad]; rfl
  · rw [step_of_call hc, serve, if_neg hbad]; rfl

end Sys2Proof.Machine
end

section
/-! PROOFS. The one exception (60_exceptions): no run from a state of the invariant meets it. -/

namespace Sys2Proof.Machine

/-- From a state of the invariant any number of actions runs, and leads to a state of the invariant
(40_clock_cycle_state_machine R75). -/
theorem run_of_inv {s : State} (n : Nat) (hs : s.Inv = true) :
    ∃ t, Host.Core.run core n s = .next t ∧ t.Inv = true := by
  induction n generalizing s with
  | zero => exact ⟨s, rfl, hs⟩
  | succ n ih =>
    obtain ⟨u, hstep⟩ := invariantStatesAlwaysStep s hs
    rw [run_succ n hstep]
    exact ih (everyActionKeepsTheInvariant s u hs hstep)

/-- Settles O37: reset meets the invariant whatever the host has pending, and the invariant excludes the fault. -/
theorem faultIsUnreachableFromReset : Obligations.FaultIsUnreachableFromReset := by
  intro calls stepping out n
  obtain ⟨t, hrun, ht⟩ := run_of_inv n
    (inv_hostReset { State.reset with calls := calls, stepping := stepping, out := out })
  obtain ⟨-, hf, hk, -⟩ := (inv_iff t).1 ht
  exact ⟨t, hrun, hf, hk⟩

end Sys2Proof.Machine
end

section
/-! PROOFS. Reset and the hazards (70_reset_and_hazards): the boot sequence, runs of whole instructions and of clock
steps as iterates, zeroed memory, and the spin with the end of a run. -/

namespace Sys2Proof.Machine

/-! The boot sequence (70_reset_and_hazards R133, R134) -/

/-- An image over zeroed memory reads as the image, and as 0 past its end. -/
theorem Memory.read_load_nil (vs : List Byte) (a : Nat) : (Memory.load [] 0 vs).read a = vs.getD a 0 := by
  rw [Memory.read_load, Nat.zero_add, Nat.sub_zero]
  split
  next => rfl
  next h => exact (List.getD_eq_default vs 0 (Nat.not_lt.1 fun hlt => h ⟨a.zero_le, hlt⟩)).symm

/-- Settles O44: the reset state meets the invariant with memory empty, and the load writes memory only. -/
theorem bootLeavesTheImageAtTheEntryPoint : Obligations.BootLeavesTheImageAtTheEntryPoint := by
  intro s bytes hc
  have hreset : step s = .next ({ s with calls := [.loadImage bytes] }.hostReset.answer .returned) := step_of_call hc
  exact ⟨_, (run_succ 1 hreset).trans (run_succ 0 (step_of_loadImage rfl)), inv_loadImage bytes (inv_hostReset s), rfl,
    rfl, rfl, rfl, Memory.read_load_nil _⟩

/-! Whole instructions (70_reset_and_hazards R149) -/

/-- The next phase-0 boundary: the effect of the fetched instruction. -/
def State.nextBoundary (s : State) : State := rowEffect s.fetched s

/-- What one instruction does to the control items: it counts twelve clocks and one retirement. -/
theorem nextBoundary_control (s : State) :
    s.nextBoundary.errorFlag = s.errorFlag ∧ s.nextBoundary.microState = 0 ∧
      s.nextBoundary.clockCount = s.clockCount + 12 ∧
      s.nextBoundary.instructionCount = s.instructionCount + 1 := by
  rw [State.nextBoundary, State.fetched, rowEffect_subleq_frame]
  exact ⟨rfl, rfl, rfl, rfl⟩

/-- A driver that steps by instruction runs from boundary to boundary. -/
theorem run_of_boundary {s : State} (n : Nat) (h : s.AtBoundary) :
    Host.Core.run core n s = .next (State.nextBoundary^[n] s) := by
  induction n generalizing s with
  | zero => rfl
  | succ n ih => exact (run_succ n (step_of_boundary h)).trans (ih (atBoundary_rowEffect_fetched h))

/-- What `n` instructions do to the control items. -/
theorem iterate_nextBoundary_control {s : State} (n : Nat) (hf : s.errorFlag = false) (hk : s.microState = 0) :
    (State.nextBoundary^[n] s).microState = 0 ∧ (State.nextBoundary^[n] s).errorFlag = false ∧
      (State.nextBoundary^[n] s).clockCount = s.clockCount + 12 * n ∧
      (State.nextBoundary^[n] s).instructionCount = s.instructionCount + n := by
  induction n with
  | zero => exact ⟨hk, hf, rfl, rfl⟩
  | succ n ih =>
    obtain ⟨-, hflag, hclocks, hretired⟩ := ih
    obtain ⟨hflag', hphase', hclocks', hretired'⟩ := nextBoundary_control (State.nextBoundary^[n] s)
    rw [Function.iterate_succ_apply', hflag', hclocks', hretired', hclocks, hretired]
    exact ⟨hphase', hflag, by omega, by omega⟩

/-- Settles O32: `n` actions are `n` instructions, each of which counts twelve clocks and retires once. -/
theorem everyInstructionTakesTwelveClocks : Obligations.EveryInstructionTakesTwelveClocks :=
  fun _ n hf hk hc hs => ⟨_, run_of_boundary n ⟨hf, hk, hc, hs⟩, iterate_nextBoundary_control n hf hk⟩

/-! Zeroed memory (70_reset_and_hazards R143) -/

/-- Settles O46: the fetched instruction is `subleq 0, 0, 0`, whose target is 0 whether its own C cell is cell 0 or not. -/
theorem zeroTripleClearsCellZeroAndRestarts : Obligations.ZeroTripleClearsCellZeroAndRestarts := by
  intro s hf hk hA hB hC
  have hrun := clockSteps_twelve hf hk
  rw [State.fetched, hA, hB, hC] at hrun
  have htarget : (rowEffect (.subleq 0 0 0) s).addrReg = 0 := by
    rw [rowEffect_subleq_addrReg, sub_self, ite_self]
  refine ⟨_, hrun, ?_, rfl, ?_, ?_, fun a ha => ?_⟩
  · rw [rowEffect_subleq_pc, if_pos le_rfl, htarget]
  · rw [rowEffect_subleq_same_mem]; exact (Memory.read_write ..).trans (if_pos rfl)
  · exact (rowEffect_subleq_out ..).trans (if_neg (by decide))
  · rw [rowEffect_subleq_same_mem]; exact (Memory.read_write ..).trans (if_neg ha)

/-! Clock steps as a run of the driver -/

/-- A driver that steps by clock cycle runs the clock steps. -/
theorem run_of_clockCycle {s : State} (n : Nat) (hc : s.calls = []) (hs : s.stepping = .clockCycle)
    (h : s.errorFlag = false ∧ s.microState.toNat < 12) : Host.Core.run core n s = .next (State.afterClock^[n] s) := by
  induction n generalizing s with
  | zero => rfl
  | succ n ih =>
    have hstep : step s = .next s.afterClock := (step_clockCycle hc hs).trans (clockStep_next_iff.2 ⟨h.1, rfl⟩)
    exact (run_succ n hstep).trans (ih hc hs (legal_afterClock h))

theorem legal_of_phaseZero {s : State} (hf : s.errorFlag = false) (hk : s.microState = 0) :
    s.errorFlag = false ∧ s.microState.toNat < 12 := ⟨hf, by rw [hk]; decide⟩

/-- Twelve clock steps from a boundary lead to the next one. -/
theorem iterate_afterClock_twelve {s : State} (hf : s.errorFlag = false) (hk : s.microState = 0) :
    State.afterClock^[12] s = s.nextBoundary := by
  have h := (clockSteps_eq_iterate 12 (legal_of_phaseZero hf hk)).symm.trans (clockSteps_twelve hf hk)
  exact Host.Outcome.next.inj h

/-- Twelve times `q` clock steps are `q` instructions. -/
theorem iterate_afterClock_twelve_mul {s : State} (q : Nat) (hf : s.errorFlag = false) (hk : s.microState = 0) :
    State.afterClock^[12 * q] s = State.nextBoundary^[q] s := by
  induction q generalizing s with
  | zero => rfl
  | succ q ih =>
    obtain ⟨hflag, hphase, -⟩ := nextBoundary_control s
    rw [Nat.mul_succ, Function.iterate_add_apply, iterate_afterClock_twelve hf hk, ih (hflag.trans hf) hphase,
      Function.iterate_succ_apply]

/-- Clock steps that do not pass phase 8 leave memory and the output as they are. -/
theorem iterate_afterClock_no_store {s : State} (n : Nat) (h : s.errorFlag = false ∧ s.microState.toNat < 12)
    (hn : s.microState.toNat + n ≤ 8 ∨ 8 < s.microState.toNat ∧ s.microState.toNat + n ≤ 12) :
    (State.afterClock^[n] s).mem = s.mem ∧ (State.afterClock^[n] s).out = s.out := by
  induction n with
  | zero => exact ⟨rfl, rfl⟩
  | succ n ih =>
    obtain ⟨hmem, hout⟩ := ih (by omega)
    have hphase := (iterate_afterClock_of_legal n h).1
    have hne : (State.afterClock^[n] s).microState.toNat ≠ 8 := by omega
    rw [Function.iterate_succ_apply', afterClock_mem_of_ne hne, afterClock_out_of_ne hne]
    exact ⟨hmem, hout⟩

/-- Within an instruction, memory and the output are those of the boundary before it or of the one after it. -/
theorem iterate_afterClock_between {s : State} {r : Nat} (hf : s.errorFlag = false) (hk : s.microState = 0)
    (hr : r < 12) :
    ((State.afterClock^[r] s).mem = s.mem ∧ (State.afterClock^[r] s).out = s.out) ∨
      ((State.afterClock^[r] s).mem = s.nextBoundary.mem ∧ (State.afterClock^[r] s).out = s.nextBoundary.out) := by
  have hlegal := legal_of_phaseZero hf hk
  have hzero : s.microState.toNat = 0 := congrArg BitVec.toNat hk
  by_cases h8 : r ≤ 8
  · exact .inl (iterate_afterClock_no_store r hlegal (by omega))
  · obtain ⟨hphase, hflag, -⟩ := iterate_afterClock_of_legal r hlegal
    have hrest := iterate_afterClock_no_store (s := State.afterClock^[r] s) (12 - r) ⟨hflag, by omega⟩ (by omega)
    rw [← Function.iterate_add_apply, Nat.sub_add_cancel hr.le, iterate_afterClock_twelve hf hk] at hrest
    obtain ⟨hmem, hout⟩ := hrest
    exact .inr ⟨hmem.symm, hout.symm⟩

/-! One pass of the spin (70_reset_and_hazards R145) -/

/-- The branch target is the C cell as it reads after the store (41_subleq_instruction R88). -/
theorem nextBoundary_addrReg (s : State) : s.nextBoundary.addrReg = s.nextBoundary.memRead (s.pc + 2) := by
  rw [State.nextBoundary, State.fetched, rowEffect_subleq_addrReg, rowEffect_subleq_memRead]
  simp only [eq_comm]

section
variable {s : State} {h z : Byte} (hform : s.SpinForm h z) (hpc : s.pc = h)
include hform hpc

theorem fetched_of_spinForm : s.fetched = .subleq z z h := by
  obtain ⟨hA, hB, hC⟩ := hform
  rw [State.fetched, hpc, hA, hB, hC]

/-- A pass clears the cell `z` and no other. -/
theorem nextBoundary_read_of_spinForm (a : Nat) :
    s.nextBoundary.mem.read a = if a = z.toNat then 0 else s.mem.read a := by
  rw [State.nextBoundary, fetched_of_spinForm hform hpc, rowEffect_subleq_same_mem, Memory.read_write]

/-- A pass emits a 0 exactly where the spin is on the output cell (41_subleq_instruction R87). -/
theorem nextBoundary_out_of_spinForm : s.nextBoundary.out = if z = 255 then s.out ++ [0] else s.out := by
  rw [State.nextBoundary, fetched_of_spinForm hform hpc, rowEffect_subleq_out, sub_self]

/-- A pass that leaves the three cells as they are goes back to the spin, with `M[z]` = 0. -/
theorem endOfRun_nextBoundary (hf : s.errorFlag = false) (hafter : s.nextBoundary.SpinForm h z) :
    s.nextBoundary.EndOfRun h z := by
  obtain ⟨hflag, hphase, -⟩ := nextBoundary_control s
  have htaken : s.nextBoundary.pc = s.nextBoundary.addrReg := by
    rw [State.nextBoundary, fetched_of_spinForm hform hpc]; exact if_pos le_rfl
  have ⟨_, _, hC⟩ := hafter
  have hback : s.nextBoundary.pc = h := by rw [htaken, nextBoundary_addrReg, hpc, hC]
  exact ⟨hflag.trans hf, hphase, hback, (nextBoundary_read_of_spinForm hform hpc _).trans (if_pos rfl), hafter⟩

end

/-- The spin's three cells are of the same form in a memory that reads alike at them. -/
theorem spinForm_congr {s t : State} {h z : Byte} (hform : s.SpinForm h z)
    (hread : ∀ x : Byte, x = h ∨ x = h + 1 ∨ x = h + 2 → t.memRead x = s.memRead x) : t.SpinForm h z := by
  obtain ⟨hA, hB, hC⟩ := hform
  exact ⟨(hread _ (.inl rfl)).trans hA, (hread _ (.inr (.inl rfl))).trans hB, (hread _ (.inr (.inr rfl))).trans hC⟩

/-- A pass of the spin whose `z` is no cell of it leaves the spin, at the end of the run, and emits nothing. -/
theorem nextBoundary_of_spinAt {s : State} {h z : Byte} (hspin : s.SpinAt h z) (hpc : s.pc = h)
    (hf : s.errorFlag = false) :
    s.nextBoundary.SpinAt h z ∧ s.nextBoundary.EndOfRun h z ∧ s.nextBoundary.out = s.out := by
  obtain ⟨hform, hout, hA, hB, hC⟩ := hspin
  have hafter : s.nextBoundary.SpinForm h z := by
    refine spinForm_congr hform fun x hx => (nextBoundary_read_of_spinForm hform hpc _).trans (if_neg ?_)
    rw [BitVec.toNat_inj]
    rcases hx with rfl | rfl | rfl
    · exact hA.symm
    · exact hB.symm
    · exact hC.symm
  exact ⟨⟨hafter, hout, hA, hB, hC⟩, endOfRun_nextBoundary hform hpc hf hafter,
    (nextBoundary_out_of_spinForm hform hpc).trans (if_neg hout)⟩

/-! From the end of a run on (70_reset_and_hazards R145, decision D14) -/

/-- What the spin on `z` may change from `s` to `t` as far as memory and the output go: no cell, and the output only where
`z` is the output cell, by zeros. -/
def SpinFrame (z : Byte) (s t : State) : Prop :=
  (∀ a : Nat, t.mem.read a = s.mem.read a) ∧ ∃ k : Nat, t.out = s.out ++ List.replicate k 0 ∧ (z ≠ 255 → k = 0)

theorem SpinFrame.of_eq {z : Byte} {s t : State} (h : t.mem = s.mem ∧ t.out = s.out) : SpinFrame z s t := by
  obtain ⟨hmem, hout⟩ := h
  exact ⟨fun a => by rw [hmem], 0, by rw [hout, List.replicate_zero, List.append_nil], fun _ => rfl⟩

theorem SpinFrame.trans {z : Byte} {s t u : State} (hst : SpinFrame z s t) (htu : SpinFrame z t u) :
    SpinFrame z s u := by
  obtain ⟨hread, k, hout, hk⟩ := hst
  obtain ⟨hread', k', hout', hk'⟩ := htu
  refine ⟨fun a => (hread' a).trans (hread a), k + k', ?_, fun hz => by rw [hk hz, hk' hz]⟩
  rw [hout', hout, List.append_assoc, List.replicate_add]

/-- Where `z` is not the output cell, the output stays. -/
theorem SpinFrame.out_eq {z : Byte} {s t : State} (h : SpinFrame z s t) (hz : z ≠ 255) : t.out = s.out := by
  obtain ⟨-, k, hout, hk⟩ := h
  rw [hout, hk hz, List.replicate_zero, List.append_nil]

theorem SpinFrame.memRead_eq {z : Byte} {s t : State} (h : SpinFrame z s t) (x : Byte) : t.memRead x = s.memRead x :=
  h.1 x.toNat

/-- The pass after the end of a run: the store of 0 changes no cell, as `M[z]` is 0 already. -/
theorem nextBoundary_of_endOfRun {s : State} {h z : Byte} (hend : s.EndOfRun h z) :
    s.nextBoundary.EndOfRun h z ∧ SpinFrame z s s.nextBoundary := by
  obtain ⟨hf, -, hpc, hzero, hform⟩ := hend
  have hframe : SpinFrame z s s.nextBoundary := by
    refine ⟨fun a => ?_, if z = 255 then 1 else 0, ?_, fun hz => if_neg hz⟩
    · rw [nextBoundary_read_of_spinForm hform hpc]
      split
      next ha => rw [ha]; exact hzero.symm
      next => rfl
    · rw [nextBoundary_out_of_spinForm hform hpc]
      split
      · rfl
      · exact (List.append_nil _).symm
  exact ⟨endOfRun_nextBoundary hform hpc hf (spinForm_congr hform fun x _ => hframe.memRead_eq x), hframe⟩

/-- Any number of passes after the end of a run. -/
theorem iterate_nextBoundary_of_endOfRun {s : State} {h z : Byte} (n : Nat) (hend : s.EndOfRun h z) :
    (State.nextBoundary^[n] s).EndOfRun h z ∧ SpinFrame z s (State.nextBoundary^[n] s) := by
  induction n with
  | zero => exact ⟨hend, .of_eq ⟨rfl, rfl⟩⟩
  | succ n ih =>
    obtain ⟨hend', hframe⟩ := ih
    obtain ⟨hnext, hpass⟩ := nextBoundary_of_endOfRun hend'
    rw [Function.iterate_succ_apply']
    exact ⟨hnext, hframe.trans hpass⟩

/-- Settles O47: the first pass goes to the end of the run, and every pass from there goes to it again. -/
theorem spinStaysForEver : Obligations.SpinStaysForEver := by
  intro s h z n hf hc hs hspin hk hpc
  have hboundary : s.AtBoundary := ⟨hf, hk, hc, hs⟩
  refine ⟨⟨_, step_of_boundary hboundary, nextBoundary_of_spinAt hspin hpc hf⟩, fun hend => ?_⟩
  obtain ⟨hend', hframe⟩ := iterate_nextBoundary_of_endOfRun n hend
  obtain ⟨-, hz, hcells⟩ := hspin
  have ⟨_, _, _, _, hform'⟩ := hend'
  exact ⟨_, run_of_boundary n hboundary, ⟨hform', hz, hcells⟩, hend', hframe.out_eq hz, hframe.1⟩

/-- Settles O51: the run goes to the next boundary, and of the states before it only the first is at phase 0. -/
theorem reachingTheSpinEndsTheRun : Obligations.ReachingTheSpinEndsTheRun := by
  intro s h z hf hc hform hk hpc
  refine ⟨fun hzero => runEndsAt_zero ⟨hf, hk, hpc, hzero, hform⟩, fun hne hspin => ?_⟩
  obtain ⟨-, hend, hout⟩ := nextBoundary_of_spinAt hspin hpc hf
  have hnotEnd : ¬ s.EndOfRun h z := fun ⟨_, _, _, hzero, _⟩ => hne hzero
  refine ⟨s.nextBoundary, ?_, hout, fun a ha => (nextBoundary_read_of_spinForm hform hpc a).trans (if_neg ha)⟩
  cases hs : s.stepping with
  | instruction =>
    rw [if_pos rfl]
    refine ⟨run_of_boundary 1 ⟨hf, hk, hc, hs⟩, hend, fun m u hm hrun => ?_⟩
    obtain rfl := Nat.lt_one_iff.1 hm
    cases hrun
    exact hnotEnd
  | clockCycle =>
    rw [if_neg (by decide)]
    have hlegal := legal_of_phaseZero hf hk
    have hzero : s.microState.toNat = 0 := congrArg BitVec.toNat hk
    refine ⟨?_, hend, fun m u hm hrun hu => ?_⟩
    · rw [run_of_clockCycle 12 hc hs hlegal, iterate_afterClock_twelve hf hk]
    · cases (run_of_clockCycle m hc hs hlegal).symm.trans hrun
      have ⟨_, hphase, _⟩ := hu
      have hm0 : m = 0 := by
        have hcount := (iterate_afterClock_of_legal m hlegal).1
        rw [hphase, hzero, Nat.zero_add, Nat.mod_eq_of_lt hm] at hcount
        exact hcount.symm
      subst hm0
      exact hnotEnd hu

/-! The end of a run is one state, and it is final (decision D14) -/

/-- A run in two parts. -/
theorem run_add {s t : State} {n : Nat} (m : Nat) (h : Host.Core.run core n s = .next t) :
    Host.Core.run core (n + m) s = Host.Core.run core m t := by
  induction n generalizing s with
  | zero => cases h; rw [Nat.zero_add]
  | succ n ih =>
    cases hstep : step s with
    | next u =>
      rw [run_succ n hstep] at h
      rw [Nat.add_right_comm, run_succ (n + m) hstep, ih h]
    | fault r => cases (run_of_fault n hstep).symm.trans h
    | refused r =>
      simp only [Host.Core.run] at h
      rw [show core.step s = step s from rfl, hstep] at h
      cases h

/-- No run ends before the run that ends first. -/
theorem RunEndsAt.le {s t t' : State} {h z : Byte} {n n' : Nat} (he : RunEndsAt s h z n t)
    (he' : RunEndsAt s h z n' t') : n ≤ n' := by
  obtain ⟨-, -, hfirst⟩ := he
  obtain ⟨hrun, hend, -⟩ := he'
  exact Nat.not_lt.1 fun hlt => hfirst n' t' hlt hrun hend

/-- A run ends at one state, after one number of actions. -/
theorem RunEndsAt.unique {s t t' : State} {h z : Byte} {n n' : Nat} (he : RunEndsAt s h z n t)
    (he' : RunEndsAt s h z n' t') : n' = n ∧ t' = t := by
  obtain rfl : n' = n := Nat.le_antisymm (he'.le he) (he.le he')
  exact ⟨rfl, Host.Outcome.next.inj (he'.1.symm.trans he.1)⟩

/-- Clock steps from the end of a run: whole passes, and then a part of one. -/
theorem iterate_afterClock_of_endOfRun {t : State} {h z : Byte} (m : Nat) (hend : t.EndOfRun h z) :
    SpinFrame z t (State.afterClock^[m] t) ∧ (State.afterClock^[m] t).errorFlag = false ∧
      ((State.afterClock^[m] t).microState = 0 → (State.afterClock^[m] t).EndOfRun h z) := by
  have ⟨hf, hk, _⟩ := hend
  obtain ⟨hendPass, hframePass⟩ := iterate_nextBoundary_of_endOfRun (m / 12) hend
  have hsplit : State.afterClock^[m] t = State.afterClock^[m % 12] (State.nextBoundary^[m / 12] t) := by
    rw [← iterate_afterClock_twelve_mul _ hf hk, ← Function.iterate_add_apply, Nat.mod_add_div]
  rw [hsplit]
  generalize State.nextBoundary^[m / 12] t = v at hendPass hframePass
  have ⟨hfv, hkv, _⟩ := hendPass
  have hr : m % 12 < 12 := Nat.mod_lt m (by decide)
  obtain ⟨hphase, hflag, -⟩ := iterate_afterClock_of_legal (m % 12) (legal_of_phaseZero hfv hkv)
  refine ⟨hframePass.trans ?_, hflag, fun hzero => ?_⟩
  · rcases iterate_afterClock_between hfv hkv hr with hbefore | hafter
    · exact .of_eq hbefore
    · exact (nextBoundary_of_endOfRun hendPass).2.trans (.of_eq hafter)
  · have hr0 : m % 12 = 0 := by
      rw [hzero, hkv] at hphase; simpa using hphase.symm
    rw [hr0]
    exact hendPass

/-- With no call pending, the driver goes on from the end of a run for ever, in either stepping. -/
theorem run_of_endOfRun {t : State} {h z : Byte} (m : Nat) (hend : t.EndOfRun h z) (hc : t.calls = []) :
    ∃ u : State, Host.Core.run core m t = .next u ∧ SpinFrame z t u ∧ u.errorFlag = false ∧
      (u.microState = 0 → u.EndOfRun h z) := by
  have ⟨hf, hk, _⟩ := hend
  cases hs : t.stepping with
  | instruction =>
    obtain ⟨hend', hframe⟩ := iterate_nextBoundary_of_endOfRun m hend
    exact ⟨_, run_of_boundary m ⟨hf, hk, hc, hs⟩, hframe, hend'.1, fun _ => hend'⟩
  | clockCycle =>
    exact ⟨_, run_of_clockCycle m hc hs (legal_of_phaseZero hf hk), iterate_afterClock_of_endOfRun m hend⟩

/-- Settles O52: the first end is unique, and the run goes on from it as the driver's run. -/
theorem theEndOfARunIsFinal : Obligations.TheEndOfARunIsFinal := by
  intro s t h z n he
  refine ⟨fun n' t' he' => he.unique he', fun hc m => ?_⟩
  obtain ⟨hrun, hend, -⟩ := he
  obtain ⟨u, hlater, ⟨hread, k, hout, hk⟩, hflag, hboundary⟩ := run_of_endOfRun m hend hc
  exact ⟨u, k, (run_add m hrun).trans hlater, hread, hout, hk, hflag, hboundary⟩

end Sys2Proof.Machine
end

section
/-! PROOFS. The table's words (30_encoding): the cells and the row that a word stands for, and the step that runs the
instruction placed from it. -/

namespace Sys2Proof

/-! Words of the two widths (30_encoding R51, R55) -/

/-- A 24-bit word is a SUBLEQ, its three bytes from the top down (log entry 8). -/
theorem decodeTableWord_subleq {w : Nat} (h : w < 2 ^ 24) :
    decodeTableWord 24 w =
      some (.subleq (BitVec.ofNat 8 (w / 2 ^ 16)) (BitVec.ofNat 8 (w / 2 ^ 8)) (BitVec.ofNat 8 w)) := by
  rw [decodeTableWord, if_pos ⟨rfl, h⟩, decode_abc_cons]

/-- A value below 16 selects the row of that `microState` (log entry 8). -/
theorem decodeTableWord_microState {w : Nat} (h : w < 16) :
    decodeTableWord 8 w = some (decodeMicroState (BitVec.ofNat 4 w)) := by
  have hbyte : (BitVec.ofNat 4 w).zeroExtend 8 = BitVec.ofNat 8 w := by
    apply BitVec.eq_of_toNat_eq
    simp only [BitVec.truncate_eq_setWidth, BitVec.toNat_setWidth, BitVec.toNat_ofNat]
    omega
  have hwidth : ¬(8 = 24 ∧ w < 2 ^ 24) := by omega
  have hrange : 0 < 8 ∧ 8 ≤ 8 ∧ w < 2 ^ 8 := by omega
  rw [decodeTableWord, if_neg hwidth, if_pos hrange, ← hbyte, Machine.decode_zeroExtend]

/-- Settles O3: the bytes of the word, read as numbers. -/
theorem tableWordFieldsAreCells : Obligations.TableWordFieldsAreCells := by
  intro w hw
  have htop : w / 2 ^ 16 < 2 ^ 8 := by omega
  exact ⟨_, _, _, decodeTableWord_subleq hw, Nat.mod_eq_of_lt htop, BitVec.toNat_ofNat .., BitVec.toNat_ofNat ..⟩

/-- Settles O2: the legal words are codes of their rows, which the decoder reads back; 16 and the pair of cells compute
to their rejections. -/
theorem specWordsDecode : Obligations.SpecWordsDecode :=
  ⟨decode_encode_append (.subleq 3 3 6) [], decode_encode_append (.subleq 9 2 20) [30],
    decode_encode_append .p0AssertPcA [], decode_encode_append .p3LatchAVal [], decode_encode_append .p8SubStore [],
    decode_encode_append .p11Branch [], decode_encode_append .illegalMicrostate13 [], rfl, rfl⟩

end Sys2Proof

namespace Sys2Proof.Machine

/-! The placed instruction (log entry 9) -/

/-- A placed word is the fetched instruction: its cells have three different addresses, also where `pc` wraps, so none
is written over by another. -/
theorem withFetchWord_fetched (s : State) (w : Nat) :
    (s.withFetchWord 24 w).fetched =
      .subleq (BitVec.ofNat 8 (w / 2 ^ 16)) (BitVec.ofNat 8 (w / 2 ^ 8)) (BitVec.ofNat 8 w) := by
  simp [State.withFetchWord, placeInstr, State.fetched, State.memRead, State.aCellAddr, Memory.read_write_byte,
    -BitVec.toNat_add]

theorem withFetchWord_atBoundary (s : State) (w : Nat) : (s.withFetchWord 24 w).AtBoundary := ⟨rfl, rfl, rfl, rfl⟩

/-- A placed `microState` value is the row that the next step runs. -/
theorem step_withFetchWord_microState (s : State) (w : Nat) :
    step (s.withFetchWord 8 w) = exec (decodeMicroState (BitVec.ofNat 4 w)) (s.withFetchWord 8 w) :=
  step_clockCycle rfl rfl

/-- A clock step without the fault sets the flag exactly on an illegal micro-state
(40_clock_cycle_state_machine R72). -/
theorem afterClock_errorFlag_iff {s : State} (hf : s.errorFlag = false) :
    s.afterClock.errorFlag = true ↔ 12 ≤ s.microState.toNat := by
  simp [State.afterClock, hf]

/-- Settles O6: a placed SUBLEQ is the fetched instruction of a boundary; a placed `microState` value is
a clock step. -/
theorem placedInstructionRunsNext : Obligations.PlacedInstructionRunsNext := by
  intro s w
  refine ⟨fun hw => ?_, fun hw => ?_⟩
  · have hstep := step_of_boundary (withFetchWord_atBoundary s w)
    obtain ⟨-, -, -, hretired⟩ := nextBoundary_control (s.withFetchWord 24 w)
    refine ⟨_, decodeTableWord_subleq hw, ?_, _, hstep, hretired⟩
    rw [hstep, withFetchWord_fetched, exec_of_clear _ rfl]
  · have hstep := step_withFetchWord_microState s w
    have hclock : clockStep (s.withFetchWord 8 w) = .next (s.withFetchWord 8 w).afterClock :=
      clockStep_next_iff.2 ⟨rfl, rfl⟩
    have hphase : (s.withFetchWord 8 w).microState.toNat = w := Nat.mod_eq_of_lt hw
    refine ⟨_, decodeTableWord_microState hw, hstep, _, hstep.trans hclock, ?_⟩
    rw [afterClock_errorFlag_iff rfl, hphase]

end Sys2Proof.Machine
end

section
/-! PROOFS. Phase 7, and the two faults of a step (40_clock_cycle_state_machine R67, R72, R73): what each reports, and
that nothing else stops the machine. -/

namespace Sys2Proof.Machine

/-- Settles O10: `pc` is incremented as a byte, so modulo 256. -/
theorem phaseSevenLoadsAccB : Obligations.PhaseSevenLoadsAccB := fun s hf =>
  ⟨_, exec_of_clear _ hf, rfl, add_one_toNat s.pc, rfl⟩

/-- A host's clock step reports the outcome of the clock step (43_host_interface R103). -/
theorem step_of_stepClockCycle_outcome {s : State} {rest : List HostCall} {o : Host.Outcome State Fault Refusal}
    (hc : s.calls = .stepClockCycle :: rest) (ho : clockStep { s with calls := rest } = o) :
    step s = reportStep { s with calls := rest } o := by
  rw [step_of_call hc, serve, ho]

/-- On an illegal micro-state the clock step takes the exception (40_clock_cycle_state_machine R72). -/
theorem clockStep_of_illegal {s : State} (hf : s.errorFlag = false) (hk : 12 ≤ s.microState.toNat) :
    clockStep s = .next s.raiseInvariantViolation := by
  rw [clockStep_of_clear hf, rowEffect_of_illegal hk]

/-- Settles O13: the four rows take the exception, and so does the clock step that the host calls for. -/
theorem illegalMicroStateTakesTheFault : Obligations.IllegalMicroStateTakesTheFault := fun _ _ hf =>
  ⟨exec_of_clear _ hf, exec_of_clear _ hf, exec_of_clear _ hf, exec_of_clear _ hf, fun hk hc =>
    step_of_stepClockCycle_outcome hc (clockStep_of_illegal hf hk)⟩

theorem exec_of_set (i : Instr) {s : State} (h : s.errorFlag = true) : exec i s = .fault .steppedWhileFaulted := by
  rw [exec_eq, unlessFaulted_of_set h]

/-- Settles O14: every row checks the flag first, and the host's call only adds the report. -/
theorem faultedStepChangesNothing : Obligations.FaultedStepChangesNothing := fun _ _ hf =>
  ⟨fun i => exec_of_set i hf, step_of_set_of_no_call hf, fun hc =>
    step_of_stepClockCycle_outcome hc (clockStep_of_set hf)⟩

/-- Without the fault the stepper answers a next state, from an illegal micro-state too (42_instruction_stepper R97). -/
theorem stepInstruction_answers {s : State} (hf : s.errorFlag = false) : ∃ t, stepInstruction s = .next t := by
  by_cases hk : s.microState.toNat < 12
  · exact runToPhaseZero_answers _ ⟨hf, hk⟩
  · exact ⟨_, stepInstruction_of_illegal hf (Nat.not_lt.1 hk)⟩

/-- The machine takes its next action wherever the flag is clear or a host call is pending. -/
theorem step_answers {s : State} (h : s.errorFlag = false ∨ s.calls ≠ []) : ∃ t, step s = .next t := by
  cases hc : s.calls with
  | cons c rest => rw [step_of_call hc]; exact serve_answers c _
  | nil =>
    have hf : s.errorFlag = false := h.resolve_right (not_not.2 hc)
    cases hs : s.stepping with
    | clockCycle => rw [step_clockCycle hc hs]; exact ⟨_, clockStep_of_clear hf⟩
    | instruction => rw [step_instruction hc hs]; exact stepInstruction_answers hf

/-- Settles O17: a faulted step with no call pending is the one step that answers no next state. -/
theorem stopsOnlyWhereFaulted : Obligations.StopsOnlyWhereFaulted := by
  intro s
  by_cases h : s.errorFlag = true ∧ s.calls = []
  · rw [step_of_set_of_no_call h.1 h.2]
    exact ⟨fun r => by simp, fun r => by simp [h, eq_comm]⟩
  · obtain ⟨t, ht⟩ := step_answers (s := s) ((not_and_or.1 h).imp_left eq_false_of_ne_true)
    rw [ht]
    exact ⟨fun r => by simp, fun r => ⟨nofun, fun ⟨hf, hc, _⟩ => absurd ⟨hf, hc⟩ h⟩⟩

end Sys2Proof.Machine
end

section
/-! PROOFS. The state that reset leaves (10_state R23; 70_reset_and_hazards R130). -/

namespace Sys2Proof.Machine

/-- Settles O34: memory is empty, and the phase and both counters are 0. -/
theorem resetMeetsTheInvariant : Obligations.ResetMeetsTheInvariant :=
  (inv_iff State.reset).2 ⟨reset_mem_wf, rfl, by decide, rfl⟩

/-- The action of a host reset. -/
theorem step_of_reset {s : State} {rest : List HostCall} (hc : s.calls = .reset :: rest) :
    step s = .next ({ s with calls := rest }.hostReset.answer .returned) := step_of_call hc

/-- Settles O38: reset leaves memory empty, where every address reads as unlisted, and keeps `out`. -/
theorem resetZeroesEverythingButTheOutput : Obligations.ResetZeroesEverythingButTheOutput := fun _ _ hc =>
  ⟨_, step_of_reset hc, Memory.read_nil, reset_mem_wf, rfl⟩

end Sys2Proof.Machine
end
